-- ==== Sys2Proof/Word.lean ====
section
/-! DEFINITION. The word types of the display controller command sequencer: a byte on the wire, a request word. -/

namespace Sys2Proof

/-- A byte: 8 bits, unsigned (00_scope.md section 5). -/
abbrev Byte := BitVec 8

/-- A word of the request port `req_word`: 32 bits (R36, R81). -/
abbrev Word := BitVec 32

end Sys2Proof
end

