-- ==== Sys2Proof/Config.lean ====
section
/-! DEFINITION. The fixed parameters (R6), the open parameters (R7) and the free values of the model. An `opaque`
constant has no value that a proof could see: what is proved holds for every value of it. -/

namespace Sys2Proof.Config

/-! ## Fixed parameters (R6) -/

/-- WIDTH: columns of the surface. -/
def width : Nat := 128
/-- PAGES: pages of the surface. -/
def pages : Nat := 8
/-- FILL_COUNT: data units of a fill, WIDTH * HEIGHT / 8. -/
def fillCount : Nat := 1024
/-- CTRL_CMD: the following byte is a command (R87). -/
def ctrlCmd : Byte := 0x00
/-- CTRL_DATA: the following byte is a data byte (R87). -/
def ctrlData : Byte := 0x40
/-- PAGE_SEL_BASE (R88). -/
def pageSelBase : Byte := 0xB0
/-- COL_LO_BASE (R89). -/
def colLoBase : Byte := 0x00
/-- COL_HI_BASE (R90). -/
def colHiBase : Byte := 0x10
/-- FONT_FIRST: the lowest character code with a glyph. -/
def fontFirst : Nat := 32
/-- FONT_LAST: the highest character code with a glyph. -/
def fontLast : Nat := 122

/-! ## Open parameters (R7, log 12) -/

/-- STATUS_W less one: the source gives no width, only that there are two status values at least. -/
opaque statusWLessOne : Nat
/-- STATUS_W, the width of a transport status, at least 1 (R7). -/
def statusW : Nat := statusWLessOne + 1

/-- DEV_ADDR7, the 7-bit device address (R7). -/
opaque devAddr7 : BitVec 7
/-- ADDR8 = zext_8(DEV_ADDR7) << 1 (R8, R97). -/
def addr8 : Byte := devAddr7.zeroExtend 8 <<< 1

/-- One of the sixteen groups of INIT_SEQ: one command byte followed by zero or more operand bytes (R121). -/
structure InitGroup where
  command : Byte
  operands : List Byte
  deriving DecidableEq, Repr, Inhabited

/-- The bytes of a group, in the order they are sent (R121). -/
def InitGroup.bytes (g : InitGroup) : List Byte := g.command :: g.operands

/-- The sixteen groups in the order of R121's table; the source gives none of the bytes. -/
opaque initGroups : Vector InitGroup 16
/-- INIT_SEQ: the groups one after another (R56, R121). -/
def initSeq : List Byte := initGroups.toList.flatMap InitGroup.bytes
/-- INIT_LEN (R7). -/
def initLen : Nat := initSeq.length

/-- The font bytes the source does not give. -/
opaque fontOther : Fin 91 → Fin 5 → Byte
/-- `FONT[i][k]`: column `k` of the glyph with index `i` (R54). Row 33, the glyph of 'A', is the one row the source gives
(R7). -/
def font (i : Fin 91) (k : Fin 5) : Byte :=
  if i = 33 then #v[0x7E, 0x11, 0x11, 0x11, 0x7E][k] else fontOther i k

/-- `QR(col, row)[k]`: column byte `k` of the cell (col, row) (R55). -/
opaque qr : Fin 5 → Fin 5 → Fin 8 → Byte

/-! ## Receiver values the source leaves unspecified (logs 6, 8, 11) -/

/-- RX.PAGE at power-on (R35, U5). -/
opaque powerOnPage : BitVec 3
/-- RX.COL at power-on (R35, U5). -/
opaque powerOnCol : BitVec 7
/-- RX.cfg at power-on (R35, U5). -/
opaque powerOnCfg : Nat
/-- RX.cfg after a configuration byte: an unspecified function of the old value and the byte (R182). -/
opaque cfgStep : Nat → Byte → Nat
/-- RX.cfg after a complete INIT_SEQ: the same whatever it was before (R122, R182). -/
opaque cfgConfigured : Nat

/-- "any 3-bit value" of the n-th draw. -/
opaque freePage : Nat → BitVec 3
/-- "any 7-bit value" of the n-th draw. -/
opaque freeCol : Nat → BitVec 7
/-- "any byte" of the n-th draw. -/
opaque freeByte : Nat → Byte
/-- The page of an unspecified position of the n-th draw (R183). -/
opaque freePosPage : Nat → BitVec 3
/-- The column of an unspecified position of the n-th draw (R183). -/
opaque freePosCol : Nat → BitVec 7
/-- "any byte" at the unspecified position of the n-th draw (R183). -/
opaque freePosByte : Nat → Byte
/-- An unspecified configuration of the n-th draw (R184). -/
opaque freeCfg : Nat → Nat
/-- The bytes of a surface of which nothing is known, of the n-th draw (R132, R203). -/
opaque freeSurface : Nat → List ((BitVec 3 × BitVec 7) × Byte)

end Sys2Proof.Config

namespace Sys2Proof

/-- A transport status, STATUS_W bits; 0 means success/acknowledge (R7, R117). -/
abbrev Status := BitVec Config.statusW

end Sys2Proof
end

