-- ==== Sys2Proof/Syntax.lean ====
section
/-! DEFINITION. The instructions: one constructor per row of spec/opcode_table.json, the places an instruction is read
from, and the shape of an encoded instruction. -/

namespace Sys2Proof

/-- The rows of spec/opcode_table.json (R80, R84, R86 to R92, R103, R110 to R112). The operand order of an operation is
the source's call order (R100). -/
inductive Instr where
  /-- INITIALIZE (R120). -/
  | initialise
  /-- PROBE (R124). -/
  | probe
  /-- SET_CURSOR x, y (R130). -/
  | setCursor (x y : Byte)
  /-- CLEAR_ALL (R140). -/
  | clearAll
  /-- FILL_ALL (R141). -/
  | fillAll
  /-- DRAW_GLYPH ch, inv (R150). -/
  | drawGlyph (ch : Byte) (inv : Bool)
  /-- DRAW_TEXT text, x, y, inv (R153): the request word and its character words together (R84). -/
  | drawText (text : List Byte) (x y : Byte) (inv : Bool)
  /-- DRAW_BITMAP x, y (R165). -/
  | drawBitmap (x y : Byte)
  /-- A character word inside a DRAW_TEXT, recognised by position only (R84). -/
  | charWord (c : Byte)
  /-- DATA_WR: a data unit at the receiver (R179). -/
  | dataWr (d : Byte)
  /-- PAGE_SEL: a page-select command unit at the receiver (R176). -/
  | pageSel (p : BitVec 3)
  /-- COL_LO: a column-low-nibble command unit at the receiver (R177). -/
  | colLo (n : BitVec 4)
  /-- COL_HI: a column-high-nibble command unit at the receiver (R178). -/
  | colHi (n : BitVec 4)
  /-- CFG: a command unit of origin InitCfg at the receiver (R182). -/
  | cfg (b : Byte)
  /-- PRB: the probe transaction (R112). -/
  | prb
  /-- CMD: the micro-operation that sends a command byte (R110). -/
  | cmd (b : Byte)
  /-- DAT: the micro-operation that sends a data byte (R111). -/
  | dat (d : Byte)
  deriving DecidableEq, Repr

/-- Where a transaction comes from (R34). It is not on the wire; the receiver's dispatch uses it (R99, R175). -/
inductive Origin where
  | initCfg | cursor | data | probe
  deriving DecidableEq, Repr

/-- Where an instruction is read from. The same bits mean different rows of the table in different places (R84, R99). -/
inductive Place where
  /-- The request port of an idle block: an operation (R81). -/
  | request
  /-- The request port of a block that waits for a character word (R84). -/
  | character
  /-- The wire, a transaction of this origin (R86, R99). -/
  | wire (o : Origin)
  /-- The sender's side of the channel: a micro-operation (R110, R111). -/
  | channel
  deriving DecidableEq, Repr

/-- An encoded instruction: words of the request port, the two bytes of a unit (control byte first, R58), or a probe,
which carries no unit (R103). -/
inductive Code where
  | words (ws : List Word)
  | unit (ctrl payload : Byte)
  | probe
  deriving DecidableEq, Repr

end Sys2Proof
end

