-- ==== Sys2Proof/WellFormed.lean ====
section
/-! DEFINITION. Well-formed instructions: what the operand fields of an encoding can hold. -/

namespace Sys2Proof

/-- The text of a DRAW_TEXT has at most 255 characters, since `len` is `W[23:16]` (R84). Every other operand has the
width of its field already. -/
def Instr.wf : Instr → Bool
  | .drawText text _ _ _ => text.length ≤ 255
  | .initialise | .probe | .setCursor _ _ | .clearAll | .fillAll | .drawGlyph _ _ | .drawBitmap _ _ => true
  | .charWord _ | .dataWr _ | .pageSel _ | .colLo _ | .colHi _ | .cfg _ | .prb | .cmd _ | .dat _ => true

end Sys2Proof
end

