-- ==== Sys2Proof/Decode.lean ====
section
/-! DEFINITION. The decoder and the encoder of both levels (30_encoding.md): request words, character words, wire units,
micro-operations. Decoding is total and rejects by name. -/

namespace Sys2Proof

/-- Why a code is no instruction in the place it was read from. -/
inductive DecodeError where
  /-- No word is there to decode. -/
  | noWord
  /-- A DRAW_TEXT request word is followed by fewer than `len` character words (R84). -/
  | missingCharacters
  /-- The control byte is not the one this place takes (R87, R98 a). -/
  | badControlByte
  /-- A command byte of origin Cursor outside the three classes (R98 c, R185). -/
  | noSuchCommand
  /-- A code of another shape than this place holds: a word on the wire, a unit at the request port, and so on. -/
  | wrongPlace
  deriving DecidableEq, Repr

/-! ## Fields -/

/-- `W[31:29]`, the operation code (R81). -/
def fieldCode (w : Word) : BitVec 3 := w.extractLsb' 29 3
/-- `W[24]`, the invert flag (R81). -/
def fieldInv (w : Word) : Bool := w.getLsbD 24
/-- `W[23:16]`, the character code or the text length (R81). -/
def fieldCh (w : Word) : Byte := w.extractLsb' 16 8
/-- `W[15:8]`, the page operand (R81). -/
def fieldY (w : Word) : Byte := w.extractLsb' 8 8
/-- `W[7:0]`, the column operand of a request word, the character of a character word (R81, R84). -/
def fieldX (w : Word) : Byte := w.extractLsb' 0 8

/-! ## Decoding -/

/-- Decodes the request at the head of the words on the request port and answers the words that follow it. Bits outside
the fields an operation uses are ignored, and every code has an operation (R82, R83); a DRAW_TEXT takes `len` character
words with it (R84). -/
def decodeRequest : List Word → Except DecodeError (Instr × List Word)
  | [] => .error .noWord
  | w :: ws =>
    match (fieldCode w).toNat with
    | 0 => .ok (.initialise, ws)
    | 1 => .ok (.probe, ws)
    | 2 => .ok (.setCursor (fieldX w) (fieldY w), ws)
    | 3 => .ok (.clearAll, ws)
    | 4 => .ok (.fillAll, ws)
    | 5 => .ok (.drawGlyph (fieldCh w) (fieldInv w), ws)
    | 6 =>
      let len := (fieldCh w).toNat
      if len ≤ ws.length then
        .ok (.drawText ((ws.take len).map fieldX) (fieldX w) (fieldY w) (fieldInv w), ws.drop len)
      else .error .missingCharacters
    | _ => .ok (.drawBitmap (fieldX w) (fieldY w), ws)

/-- Decodes a character word: `C[31:8]` is ignored (R84). -/
def decodeCharacter (w : Word) : Instr := .charWord (fieldX w)

/-- Decodes a command byte of origin Cursor (R88 to R90); any other byte has no meaning there (R98 c, R185). -/
def decodeCursorCommand (b : Byte) : Except DecodeError Instr :=
  if b.extractLsb' 3 5 = 0b10110#5 then .ok (.pageSel (b.extractLsb' 0 3))
  else if b.extractLsb' 4 4 = 0x0#4 then .ok (.colLo (b.extractLsb' 0 4))
  else if b.extractLsb' 4 4 = 0x1#4 then .ok (.colHi (b.extractLsb' 0 4))
  else .error .noSuchCommand

/-- Decodes a unit on the wire by its control byte and origin (R86, R99, R175). -/
def decodeUnit (o : Origin) (ctrl payload : Byte) : Except DecodeError Instr :=
  match o with
  | .initCfg => if ctrl = Config.ctrlCmd then .ok (.cfg payload) else .error .badControlByte
  | .cursor => if ctrl = Config.ctrlCmd then decodeCursorCommand payload else .error .badControlByte
  | .data => if ctrl = Config.ctrlData then .ok (.dataWr payload) else .error .badControlByte
  | .probe => .error .wrongPlace

/-- Decodes a unit as the micro-operation that sends it (R110, R111). -/
def decodeMicro (ctrl payload : Byte) : Except DecodeError Instr :=
  if ctrl = Config.ctrlCmd then .ok (.cmd payload)
  else if ctrl = Config.ctrlData then .ok (.dat payload)
  else .error .badControlByte

/-- Decodes a list of words that is one request and nothing more. -/
def decodeWhole (ws : List Word) : Except DecodeError Instr :=
  match decodeRequest ws with
  | .ok (i, rest) => if rest.isEmpty then .ok i else .error .wrongPlace
  | .error e => .error e

/-- Decodes a list that holds one character word and nothing more. -/
def decodeOneCharacter (ws : List Word) : Except DecodeError Instr :=
  match ws with
  | [] => .error .noWord
  | w :: rest => if rest.isEmpty then .ok (decodeCharacter w) else .error .wrongPlace

/-- Decodes a code in its place, total. -/
def decode (p : Place) (c : Code) : Except DecodeError Instr :=
  match c with
  | .words ws =>
    match p with
    | .request => decodeWhole ws
    | .character => decodeOneCharacter ws
    | .wire _ | .channel => .error .wrongPlace
  | .unit ctrl payload =>
    match p with
    | .wire o => decodeUnit o ctrl payload
    | .channel => decodeMicro ctrl payload
    | .request | .character => .error .wrongPlace
  | .probe => if p = .wire .probe then .ok .prb else .error .wrongPlace

/-! ## Encoding -/

/-- A request word from its fields, the reserved bits 0 (R81). -/
def packRequest (code : BitVec 3) (inv : Bool) (ch y x : Byte) : Word :=
  code ++ 0#4 ++ BitVec.ofBool inv ++ ch ++ y ++ x

/-- A character word, the ignored bits 0 (R84). -/
def packCharacter (c : Byte) : Word := 0#24 ++ c

/-- The page-select command byte `10110ppp` (R88). -/
def packPageSel (p : BitVec 3) : Byte := 0b10110#5 ++ p
/-- The column-low command byte `0000nnnn` (R89). -/
def packColLo (n : BitVec 4) : Byte := 0x0#4 ++ n
/-- The column-high command byte `0001nnnn` (R90). -/
def packColHi (n : BitVec 4) : Byte := 0x1#4 ++ n

/-- The canonical code of an instruction (R82, R84, R86 to R92, R100, R103): ignored bits 0. -/
def encode : Instr → Code
  | .initialise => .words [packRequest 0 false 0 0 0]
  | .probe => .words [packRequest 1 false 0 0 0]
  | .setCursor x y => .words [packRequest 2 false 0 y x]
  | .clearAll => .words [packRequest 3 false 0 0 0]
  | .fillAll => .words [packRequest 4 false 0 0 0]
  | .drawGlyph ch inv => .words [packRequest 5 inv ch 0 0]
  | .drawText text x y inv =>
    .words (packRequest 6 inv (BitVec.ofNat 8 text.length) y x :: text.map packCharacter)
  | .drawBitmap x y => .words [packRequest 7 false 0 y x]
  | .charWord c => .words [packCharacter c]
  | .dataWr d => .unit Config.ctrlData d
  | .pageSel p => .unit Config.ctrlCmd (packPageSel p)
  | .colLo n => .unit Config.ctrlCmd (packColLo n)
  | .colHi n => .unit Config.ctrlCmd (packColHi n)
  | .cfg b => .unit Config.ctrlCmd b
  | .prb => .probe
  | .cmd b => .unit Config.ctrlCmd b
  | .dat d => .unit Config.ctrlData d

/-- The place an instruction is read from (R84, R99, R103). -/
def Instr.place : Instr → Place
  | .initialise | .probe | .setCursor _ _ | .clearAll | .fillAll | .drawGlyph _ _ | .drawText _ _ _ _
  | .drawBitmap _ _ => .request
  | .charWord _ => .character
  | .dataWr _ => .wire .data
  | .pageSel _ | .colLo _ | .colHi _ => .wire .cursor
  | .cfg _ => .wire .initCfg
  | .prb => .wire .probe
  | .cmd _ | .dat _ => .channel

/-! ## The numbering of spec/opcode_table.json -/

/-- The request words of a table word: the word, and, since every bit above it is 0, as many zero character words as a
DRAW_TEXT's `len` asks for (R84). -/
def tableRequest (w : Nat) : List Word :=
  let head := BitVec.ofNat 32 w
  head :: List.replicate (if fieldCode head = 6 then (fieldCh head).toNat else 0) 0

/-- The origin a 16-bit table word is read with (log 5): a data unit is of origin Data, a command byte of one of the
three cursor classes of origin Cursor, and any other command byte can only be one of INIT_SEQ (R98 c, R99). -/
def tableOrigin (ctrl payload : Byte) : Origin :=
  if ctrl = Config.ctrlData then .data
  else match decodeCursorCommand payload with
    | .ok _ => .cursor
    | .error _ => .initCfg

/-- The instruction this decoder reads from the bits of a table row: 32 bits are a request word, 16 bits a unit with the
control byte in bits 15..8 (R86 writes the first byte on the left), no bits a probe (R103). -/
def decodeTableWord (nbits w : Nat) : Option Instr :=
  match nbits with
  | 0 => (decode (.wire .probe) .probe).toOption
  | 16 =>
    let ctrl := BitVec.ofNat 8 (w / 256)
    let payload := BitVec.ofNat 8 w
    (decode (.wire (tableOrigin ctrl payload)) (.unit ctrl payload)).toOption
  | 32 => (decode .request (.words (tableRequest w))).toOption
  | _ => none

end Sys2Proof
end

