-- ==== Sys2Proof/Machine/State.lean ====
section
/-! DEFINITION. The state of the machine (10_state.md), its faults and refusals, and the state after reset (R35). -/

namespace Sys2Proof.Machine

/-- RX.FB as data: cells `(lin(p, c), byte)` with the linear addresses of R73 strictly rising, all below 1024. An address
that is not listed holds no value (R35, log 7). -/
abbrev Memory := List Host.Cell

/-- The fault marks of R203, a set of at most three. -/
structure Marks where
  cursorOutOfRange : Bool
  busFailure : Bool
  dataBeforeInit : Bool
  deriving DecidableEq, Repr

/-- No mark (R31). -/
def Marks.none : Marks := ⟨false, false, false⟩

/-- The kind of a transaction, port `bus_kind` (R34, R36). -/
inductive TxnKind where
  | write | probe
  deriving DecidableEq, Repr

/-- One transaction as it is presented to the transport (R36): `bus_kind`, `bus_addr`, the unit (`bus_ctrl`,
`bus_payload`) of a write, and the origin tag of R34, which is not on the wire. -/
structure Txn where
  kind : TxnKind
  addr : Byte
  unit : Option (Byte × Byte)
  origin : Origin
  deriving DecidableEq, Repr

/-- One record of M.hist: a transaction and the status it returned (R34). -/
structure Record where
  txn : Txn
  status : Status
  deriving DecidableEq, Repr

/-- The operation latch SEQ.op (R21): the accepted request, decoded. -/
structure OpLatch where
  code : BitVec 3
  x : Byte
  y : Byte
  ch : Byte
  inv : Bool
  text : List Byte
  deriving DecidableEq, Repr

/-- The result register SEQ.res (R25). -/
structure Result where
  kind : BitVec 2
  status : Status
  deriving DecidableEq, Repr

/-- The sequencer (R21 to R25). -/
structure Seq where
  /-- SEQ.ready (R22): false is Uninitialized, true is Ready. -/
  ready : Bool
  /-- SEQ.busy (R23). -/
  busy : Bool
  /-- SEQ.op (R21): holds no value when no operation is in progress. -/
  op : Option OpLatch
  /-- SEQ.idx (R24). -/
  idx : Nat
  /-- SEQ.res (R25). -/
  res : Result
  /-- How many character words the block still waits for (R84, R36; log 14). -/
  want : Nat
  deriving DecidableEq, Repr

/-- The display memory receiver (R27 to R30). -/
structure Rx where
  /-- RX.PAGE (R27). -/
  page : BitVec 3
  /-- RX.COL (R28). -/
  col : BitVec 7
  /-- RX.FB (R29). -/
  fb : Memory
  /-- RX.cfg (R30): an opaque value; the number says only whether two configurations are the same (log 11). -/
  cfg : Nat
  deriving DecidableEq, Repr

/-- The ports that hold something between two steps (R36). The other output ports are functions of the state. -/
structure Port where
  /-- The words the host presents on `req_word`, next first (log 3). -/
  req : List Word
  /-- The one transaction presented to the transport and not completed yet (R36, R113; log 15). -/
  bus : Option Txn
  /-- The statuses the transport will return, next first; with none left, it has not completed (R117; log 2). -/
  answers : List Status
  /-- `done`: set at the end of an operation, cleared when a request is accepted (R36; log 13). -/
  done : Bool
  deriving DecidableEq, Repr

/-- Model bookkeeping, which no hardware holds. -/
structure Book where
  /-- M.faults (R31). -/
  faults : Marks
  /-- M.hist (R34), in issue order. -/
  hist : List Record
  /-- The model's own counter of the free values drawn so far (log 8). -/
  draws : Nat
  deriving DecidableEq, Repr

/-- The state of the machine. -/
structure State where
  seq : Seq
  rx : Rx
  port : Port
  m : Book
  deriving DecidableEq, Repr

/-- Why the machine stops. -/
inductive Fault where
  /-- SEQ.op is read while it holds no value, "a model error, not a hardware behaviour" (R21; log 19). Raised by `step`
  when `busy` is set and the latch is empty, which no run from reset reaches. Safe: the machine stops. -/
  | operationLatchEmpty
  deriving DecidableEq, Repr

/-- Why an instruction has no meaning. -/
inductive Refusal where
  /-- The instruction of this mnemonic has no meaning in the model yet. Raised by `exec` alone. Safe. -/
  | notModelled (mnemonic : String)
  /-- A delivered unit for which the receiver has no rule (R185, U11; log 17). Raised by CMD for a command byte that the
  block never produces, and by `step` for such a unit on the bus. Safe: "no run of this block contains such a unit". -/
  | unitWithoutMeaning
  /-- A character word where no DRAW_TEXT waits for one (R84; log 18): there the word would be a request. Raised by
  CHAR_WORD on an idle block. Safe. -/
  | characterOutsideText
  deriving DecidableEq, Repr

/-- The machine right after reset (R35, R230, R231). The receiver is another device and is not reset: its registers are
the unspecified power-on values (log 6) and its surface holds no value (log 7). -/
def State.reset : State where
  seq := { ready := false, busy := false, op := none, idx := 0, res := ⟨0, 0⟩, want := 0 }
  rx := { page := Config.powerOnPage, col := Config.powerOnCol, fb := [], cfg := Config.powerOnCfg }
  port := { req := [], bus := none, answers := [], done := false }
  m := { faults := Marks.none, hist := [], draws := 0 }

end Sys2Proof.Machine
end

