-- ==== Sys2Proof/Machine/Flags.lean ====
section
/-! DEFINITION. The block's status values (10_state.md section 5): the result register's kind codes and how a result
follows from what ended the operation (R25, R200 to R202), and the fault marks (R203). There are no arithmetic flags. -/

namespace Sys2Proof.Machine

/-- Kind code 0 (R200). -/
def kindOk : BitVec 2 := 0
/-- Kind code 1 (R200). -/
def kindBusFailure : BitVec 2 := 1
/-- Kind code 2 (R200). -/
def kindUnsupported : BitVec 2 := 2

/-- The result OK (R200). -/
def Result.ok : Result := ⟨kindOk, 0⟩
/-- The result of a transaction that returned `s ≠ 0`: the status verbatim (R124, R201). -/
def Result.busFailure (s : Status) : Result := ⟨kindBusFailure, s⟩
/-- The result of an unsupported character: neither the code nor its place is recorded (R202). -/
def Result.unsupported : Result := ⟨kindUnsupported, 0⟩

/-- Adds the mark CursorOutOfRange (R132, R203). -/
def Marks.addCursorOutOfRange (f : Marks) : Marks := { f with cursorOutOfRange := true }
/-- Adds the mark BusFailure (R184, R203). -/
def Marks.addBusFailure (f : Marks) : Marks := { f with busFailure := true }
/-- Adds the mark DataBeforeInit (R183, R203). -/
def Marks.addDataBeforeInit (f : Marks) : Marks := { f with dataBeforeInit := true }

/-- Whether nothing is claimed of the receiver any more, at any later unit: after CursorOutOfRange ("undefined from then
on", R132) and BusFailure ("no recovery", R184) at once; after DataBeforeInit (R203, D14) from a completed INITIALIZE on,
for until then R183 itself says what every unit does. What the receiver does then is log 9. -/
def State.rxLost (s : State) : Bool :=
  s.m.faults.cursorOutOfRange || s.m.faults.busFailure || (s.m.faults.dataBeforeInit && s.seq.ready)

end Sys2Proof.Machine
end

