-- ==== Sys2Proof/Machine/Operands.lean ====
section
/-! DEFINITION. Operand arithmetic (30_encoding.md section 3, R11, R96, R131, R132, R166): the bytes a position, a
character and a bitmap cell turn into. -/

namespace Sys2Proof.Machine

/-- The page-select command byte `0xB0 | r[2:0]` of a page value (R95, R131). -/
def pageByte (r : Nat) : Byte := Config.pageSelBase ||| (BitVec.ofNat 8 r &&& 0x07)

/-- The column-low command byte `0x00 | c[3:0]` of a column value (R94, R131). -/
def colLoByte (c : Nat) : Byte := Config.colLoBase ||| (BitVec.ofNat 8 c &&& 0x0F)

/-- The column-high command byte `0x10 | c[7:4]` of a column value (R94, R131). -/
def colHiByte (c : Nat) : Byte := Config.colHiBase ||| ((BitVec.ofNat 8 c >>> 4) &&& 0x0F)

/-- Whether a cursor position lies outside the surface (R132): tested on the untruncated values. -/
def cursorOut (cx cy : Nat) : Bool := cx ≥ Config.width || cy ≥ Config.pages

/-- Whether a character code has a glyph (R152). -/
def supported (ch : Byte) : Bool := Config.fontFirst ≤ ch.toNat && ch.toNat ≤ Config.fontLast

/-- The glyph index `ch - 32` (R96); for a supported code it is at most 90. -/
def glyphIndex (ch : Byte) : Fin 91 := Fin.ofNat 91 (ch.toNat - Config.fontFirst)

/-- The byte the invert flag exclusive-ors into a glyph: 0xFF or 0x00 (R151). -/
def invertMask (inv : Bool) : Byte := if inv then 0xFF else 0x00

/-- The seven data bytes of a drawn character: margin, five columns, margin (R151). -/
def glyphBytes (ch : Byte) (inv : Bool) : List Byte :=
  [invertMask inv] ++ (List.finRange 5).map (fun k => Config.font (glyphIndex ch) k ^^^ invertMask inv)
    ++ [invertMask inv]

/-- The column value of a bitmap cell, `x + 8*col` without loss (R166). -/
def cellX (x : Byte) (col : Fin 5) : Nat := x.toNat + 8 * col.val

/-- The page value of a bitmap cell, `y + row` without loss (R166). -/
def cellY (y : Byte) (row : Fin 5) : Nat := y.toNat + row.val

/-- The linear address of a position of the surface, `128*p + c` (R73). -/
def lin (p : BitVec 3) (c : BitVec 7) : Nat := 128 * p.toNat + c.toNat

end Sys2Proof.Machine
end

