-- ==== Sys2Proof/Machine/Ops.lean ====
section
/-! DEFINITION. The named operations: the surface memory, the receiver's registers and their free values, the end of an
operation (`finish` and `raise`, R200, R207), the output ports. -/

namespace Sys2Proof.Machine

/-! ## The surface as memory (20_memory.md) -/

/-- The canonical form of a surface: addresses strictly rising and below 1024 (R51, R73). -/
abbrev Memory.wf (m : Memory) : Prop := m.Pairwise (fun a b => a.1 < b.1) ∧ ∀ c ∈ m, c.1 < 1024

/-- The byte at a linear address; `none` where it holds no value (R35, log 7). No unit and no operation calls it: the
surface is write-only (R53). -/
def Memory.read : Memory → Nat → Option Byte
  | [], _ => none
  | c :: m, a => if c.1 = a then some c.2 else Memory.read m a

/-- Replaces all eight bits of the byte at a linear address (R179), keeping the canonical form. -/
def Memory.write : Memory → Nat → Byte → Memory
  | [], a, v => [(a, v)]
  | c :: m, a, v =>
    if a < c.1 then (a, v) :: c :: m
    else if a = c.1 then (a, v) :: m
    else c :: Memory.write m a v

/-- `RX.FB[p][c]` (R29, R51). -/
def Memory.at (m : Memory) (p : BitVec 3) (c : BitVec 7) : Option Byte := m.read (lin p c)

/-- `RX.FB[p][c] <- v` (R179). -/
def Memory.put (m : Memory) (p : BitVec 3) (c : BitVec 7) (v : Byte) : Memory := m.write (lin p c) v

/-- The surface that holds the given bytes and no others. -/
def Memory.ofCells (cells : List ((BitVec 3 × BitVec 7) × Byte)) : Memory :=
  cells.foldl (fun m c => m.put c.1.1 c.1.2 c.2) []

/-! ## The receiver's registers (46_receiver.md) -/

/-- Gives the receiver other contents. -/
def State.setRx (s : State) (rx : Rx) : State := { s with rx := rx }

/-- Gives M.faults another value (R31). -/
def State.setFaults (s : State) (f : Marks) : State := { s with m := { s.m with faults := f } }

/-- Counts one draw of free values (log 8). -/
def State.drew (s : State) : State := { s with m := { s.m with draws := s.m.draws + 1 } }

/-- `RX.PAGE <- any 3-bit value; RX.COL <- any 7-bit value` (R181, R182, R183). -/
def State.freeCursor (s : State) : State :=
  (s.setRx { s.rx with page := Config.freePage s.m.draws, col := Config.freeCol s.m.draws }).drew

/-- `RX.COL <- any 7-bit value` (R178). -/
def State.freeColumn (s : State) : State := (s.setRx { s.rx with col := Config.freeCol s.m.draws }).drew

/-- The receiver of which nothing is known any more: every register and every byte of the surface is free (R132, R184,
R203; log 9). -/
def State.forgetRx (s : State) : State :=
  (s.setRx {
    page := Config.freePage s.m.draws
    col := Config.freeCol s.m.draws
    fb := Memory.ofCells (Config.freeSurface s.m.draws)
    cfg := Config.freeCfg s.m.draws }).drew

/-- Runs a receiver rule, unless the marks say that nothing is known of the receiver (log 9). -/
def State.reacting (s : State) (rule : State → State) : State :=
  if s.rxLost then s.forgetRx else rule s

/-- The store of a data unit at the cursor (R179). -/
def State.storeAtCursor (s : State) (d : Byte) : State :=
  s.setRx { s.rx with fb := s.rx.fb.put s.rx.page s.rx.col d }

/-- The auto-increment after a store (R180), and the unspecified cursor after the last position (R181). -/
def State.advanceCursor (s : State) : State :=
  if s.rx.col.toNat < 127 then s.setRx { s.rx with col := s.rx.col + 1 }
  else if s.rx.page.toNat < 7 then s.setRx { s.rx with page := s.rx.page + 1, col := 0 }
  else s.freeCursor

/-- `RX.FB[p][c] <- any byte` for an unspecified `(p, c)`, the cursor unspecified (R183). -/
def State.storeSomewhere (s : State) : State :=
  let n := s.m.draws
  let fb := s.rx.fb.put (Config.freePosPage n) (Config.freePosCol n) (Config.freePosByte n)
  (s.setRx { s.rx with fb := fb, page := Config.freePage n, col := Config.freeCol n }).drew

/-- The receiver after a write that returned a non-zero status (R184): cursor, configuration and the byte at the cursor
are free. The position a data unit would have stored at is itself unspecified before initialisation (R183), so there a
byte at an unspecified position is free too (log 10). -/
def State.disturbRx (s : State) (o : Origin) : State :=
  let n := s.m.draws
  let fb := s.rx.fb.put s.rx.page s.rx.col (Config.freeByte n)
  let fb' :=
    if o = .data && !s.seq.ready then fb.put (Config.freePosPage n) (Config.freePosCol n) (Config.freePosByte n) else fb
  (s.setRx { page := Config.freePage n, col := Config.freeCol n, fb := fb', cfg := Config.freeCfg n }).drew

/-! ## The end of an operation (60_exceptions.md) -/

/-- Writes SEQ.res and returns the block to idle: `busy` falls, `done` is signalled, the latch loses its value (R200,
R207). `SEQ.idx` keeps its number, which has no meaning while not busy (R24). -/
def State.endWith (s : State) (r : Result) : State :=
  { s with
    seq := { s.seq with res := r, busy := false, op := none, want := 0 }
    port := { s.port with done := true } }

/-- `finish(OK)` (R200): the result OK; INITIALIZE also sets `SEQ.ready` (R123). -/
def State.finish (s : State) (initialising : Bool) : State :=
  let s := if initialising then { s with seq := { s.seq with ready := true } } else s
  s.endWith .ok

/-- `raise` (R207): no further transaction, the result written, the block idle; nothing else changes. It serves
BusFailure (R201) and UnsupportedCharacter (R202); there is no return from it (R208). -/
def State.raise (s : State) (r : Result) : State := s.endWith r

/-! ## Output ports that are functions of the state (R36); of the presented transaction where they begin with `bus` -/

/-- `req_ready`: idle, or inside a DRAW_TEXT waiting for the next character word. -/
def State.reqReady (s : State) : Bool := !s.seq.busy || s.seq.want ≠ 0
/-- `res_kind`. -/
def State.resKind (s : State) : BitVec 2 := s.seq.res.kind
/-- `res_status`. -/
def State.resStatus (s : State) : Status := s.seq.res.status
/-- `ready`. -/
def State.readyPort (s : State) : Bool := s.seq.ready
/-- `busy`. -/
def State.busyPort (s : State) : Bool := s.seq.busy
/-- `bus_valid`. -/
def State.busValid (s : State) : Bool := s.port.bus.isSome
/-- `bus_kind`: 0 for a write, 1 for a probe. -/
def Txn.busKind (t : Txn) : BitVec 1 :=
  match t.kind with
  | .write => 0
  | .probe => 1
/-- `bus_addr`: always ADDR8 (R8). -/
def Txn.busAddr (t : Txn) : Byte := t.addr
/-- `bus_ctrl`: byte 0 of the unit of a write. -/
def Txn.busCtrl (t : Txn) : Option Byte := t.unit.map Prod.fst
/-- `bus_payload`: byte 1 of the unit of a write. -/
def Txn.busPayload (t : Txn) : Option Byte := t.unit.map Prod.snd
/-- `bus_len`: 2 for a write, 0 for a probe. -/
def Txn.busLen (t : Txn) : BitVec 2 :=
  match t.kind with
  | .write => 2
  | .probe => 0

/-! ## Transactions -/

/-- The write transaction of a unit: always to ADDR8, control byte first (R8, R57, R58, R86). -/
def Txn.ofUnit (ctrl payload : Byte) (o : Origin) : Txn :=
  { kind := .write, addr := Config.addr8, unit := some (ctrl, payload), origin := o }

/-- The transaction of CMD(b) (R110). -/
def Txn.command (b : Byte) (o : Origin) : Txn := .ofUnit Config.ctrlCmd b o

/-- The transaction of DAT(d) (R111). -/
def Txn.data (d : Byte) : Txn := .ofUnit Config.ctrlData d .data

/-- The transaction PRB (R103, R112): no unit. -/
def Txn.probe : Txn := { kind := .probe, addr := Config.addr8, unit := none, origin := .probe }

end Sys2Proof.Machine
end

