-- ==== Sys2Proof/Machine/Expand.lean ====
section
/-! DEFINITION. `expand` (R93): the list of transactions an operation performs when none fails, and the result it ends
with then. -/

namespace Sys2Proof.Machine

/-- An entry of an expansion: the transaction, and whether the sender adds the mark CursorOutOfRange when it is about to
issue it (R130, R132, R165: the first unit of an out-of-range cursor micro-sequence). -/
structure Planned where
  txn : Txn
  outOfRange : Bool
  deriving DecidableEq, Repr

/-- `CMD(INIT_SEQ[i])`, origin InitCfg (R120). -/
def plannedCfg (b : Byte) : Planned := ⟨.command b .initCfg, false⟩

/-- `DAT(d)`, origin Data. -/
def plannedData (d : Byte) : Planned := ⟨.data d, false⟩

/-- `cursor(x, y)` (R131): page select, low nibble, high nibble, whatever the operands are (R132). -/
def cursorUnits (cx cy : Nat) : List Planned :=
  [⟨.command (pageByte cy) .cursor, cursorOut cx cy⟩, ⟨.command (colLoByte cx) .cursor, false⟩,
    ⟨.command (colHiByte cx) .cursor, false⟩]

/-- `glyph(ch, inv)` (R151). -/
def glyphUnits (ch : Byte) (inv : Bool) : List Planned := (glyphBytes ch inv).map plannedData

/-- The characters of a text before the first unsupported one (R153). -/
def drawable (text : List Byte) : List Byte := text.takeWhile supported

/-- One cell of DRAW_BITMAP: its cursor-set and its eight data units (R165). -/
def cellUnits (x y : Byte) (col row : Fin 5) : List Planned :=
  cursorUnits (cellX x col) (cellY y row) ++ (List.finRange 8).map fun k => plannedData (Config.qr col row k)

/-- The 25 cells of DRAW_BITMAP in raster order, `row` the outer loop (R165, R167). -/
def bitmapUnits (x y : Byte) : List Planned :=
  (List.finRange 5).flatMap fun row => (List.finRange 5).flatMap fun col => cellUnits x y col row

/-- `expand(op)` (R93). -/
def expand (op : OpLatch) : List Planned :=
  match op.code.toNat with
  | 0 => Config.initSeq.map plannedCfg ++ cursorUnits 0 0
  | 1 => [⟨.probe, false⟩]
  | 2 => cursorUnits op.x.toNat op.y.toNat
  | 3 => List.replicate Config.fillCount (plannedData 0x00)
  | 4 => List.replicate Config.fillCount (plannedData 0xFF)
  | 5 => if supported op.ch then glyphUnits op.ch op.inv else []
  | 6 => cursorUnits op.x.toNat op.y.toNat ++ (drawable op.text).flatMap (glyphUnits · op.inv)
  | _ => bitmapUnits op.x op.y

/-- Whether an operation meets an unsupported character once its expansion is done (R152, R153). -/
def meetsUnsupported (op : OpLatch) : Bool :=
  match op.code.toNat with
  | 5 => !supported op.ch
  | 6 => !op.text.all supported
  | _ => false

/-- The latch of an operation: the fields it uses, the others 0 (R21; log 20). -/
def latch (code : BitVec 3) (x y ch : Byte) (inv : Bool) (text : List Byte) : OpLatch := ⟨code, x, y, ch, inv, text⟩

/-- The decoded request each operation leaves in SEQ.op (R21, R80); the other rows of the table are no operations. -/
def latchOf : Instr → Option OpLatch
  | .initialise => some (latch 0 0 0 0 false [])
  | .probe => some (latch 1 0 0 0 false [])
  | .setCursor x y => some (latch 2 x y 0 false [])
  | .clearAll => some (latch 3 0 0 0 false [])
  | .fillAll => some (latch 4 0 0 0 false [])
  | .drawGlyph ch inv => some (latch 5 0 0 ch inv [])
  | .drawText text x y inv => some (latch 6 x y 0 inv text)
  | .drawBitmap x y => some (latch 7 x y 0 false [])
  | .charWord _ | .dataWr _ | .pageSel _ | .colLo _ | .colHi _ | .cfg _ | .prb | .cmd _ | .dat _ => none

end Sys2Proof.Machine
end

