-- ==== Sys2Proof/Machine/Receiver.lean ====
section
/-! DEFINITION. The wire units as the display memory receiver executes them (46_receiver.md): DATA_WR, PAGE_SEL, COL_LO,
COL_HI, CFG. Each is the reaction to a delivered unit, a write that returned status 0 (R175), and always has a next
state. -/

namespace Sys2Proof.Machine

/-- PAGE_SEL at the receiver: `RX.PAGE <- p` (R176). -/
def rxPageSel (p : BitVec 3) (s : State) : State :=
  s.reacting fun s => s.setRx { s.rx with page := p }

/-- COL_LO at the receiver: `RX.COL[3:0] <- n`, the other bits kept (R177). -/
def rxColLo (n : BitVec 4) (s : State) : State :=
  s.reacting fun s => s.setRx { s.rx with col := s.rx.col.extractLsb' 4 3 ++ n }

/-- COL_HI at the receiver (R178): `RX.COL[6:4] <- n[2:0]` for `n ≤ 7`; a larger `n` names no column of the surface, so
the mark is added and the column is free. -/
def rxColHi (n : BitVec 4) (s : State) : State :=
  if n.toNat ≤ 7 then
    s.reacting fun s => s.setRx { s.rx with col := n.extractLsb' 0 3 ++ s.rx.col.extractLsb' 0 4 }
  else
    let t := s.reacting State.freeColumn
    t.setFaults t.m.faults.addCursorOutOfRange

/-- DATA_WR at the receiver: the store and the advance of the cursor (R179 to R181); before a completed INITIALIZE the
mark DataBeforeInit and an unspecified byte at an unspecified position (R183). -/
def rxDataWr (d : Byte) (s : State) : State :=
  if s.seq.ready then
    s.reacting fun s => (s.storeAtCursor d).advanceCursor
  else
    let t := s.reacting State.storeSomewhere
    t.setFaults t.m.faults.addDataBeforeInit

/-- Whether the unit about to be delivered is the last InitCfg unit of an INITIALIZE (R182, R122). -/
def completesInit (s : State) : Bool :=
  match s.seq.op with
  | some op => op.code = 0 && s.seq.idx + 1 = Config.initLen
  | none => false

/-- CFG at the receiver: the configuration changes in an unspecified way, and is the same after a complete INIT_SEQ
whatever it was before (R122); the cursor is free; the surface is unchanged (R182). -/
def rxCfg (b : Byte) (s : State) : State :=
  s.reacting fun s =>
    let cfg := if completesInit s then Config.cfgConfigured else Config.cfgStep s.rx.cfg b
    (s.setRx { s.rx with cfg := cfg }).freeCursor

/-- The receiver's reaction to a delivered unit (R175). A unit it has no rule for (R185) is refused before it gets here:
see `deliverable`, and `step` and CMD, which ask it first (log 17). -/
def receive (o : Origin) (ctrl payload : Byte) (s : State) : State :=
  match decodeUnit o ctrl payload with
  | .ok (.pageSel p) => rxPageSel p s
  | .ok (.colLo n) => rxColLo n s
  | .ok (.colHi n) => rxColHi n s
  | .ok (.dataWr d) => rxDataWr d s
  | .ok (.cfg b) => rxCfg b s
  | .ok _ | .error _ => s

/-- Whether the receiver has a rule for a transaction that returned status `st`: a probe and a failed write always, a
delivered write when its unit decodes (R175, R184 to R186). -/
def deliverable (t : Txn) (st : Status) : Bool :=
  match t.kind, t.unit with
  | .probe, _ => true
  | .write, some (c, p) => st ≠ 0 || (decodeUnit t.origin c p).isOk
  | .write, none => false

/-- The receiver after a write that returned a non-zero status, with the mark BusFailure (R184). -/
def rxFailedWrite (o : Origin) (s : State) : State :=
  let t := s.reacting fun s => s.disturbRx o
  t.setFaults t.m.faults.addBusFailure

/-- PAGE_SEL (R176). -/
def execPageSel (p : BitVec 3) (s : State) : Host.Outcome State Fault Refusal := .next (rxPageSel p s)
/-- COL_LO (R177). -/
def execColLo (n : BitVec 4) (s : State) : Host.Outcome State Fault Refusal := .next (rxColLo n s)
/-- COL_HI (R178). -/
def execColHi (n : BitVec 4) (s : State) : Host.Outcome State Fault Refusal := .next (rxColHi n s)
/-- DATA_WR (R179). -/
def execDataWr (d : Byte) (s : State) : Host.Outcome State Fault Refusal := .next (rxDataWr d s)
/-- CFG (R182). -/
def execCfg (b : Byte) (s : State) : Host.Outcome State Fault Refusal := .next (rxCfg b s)

end Sys2Proof.Machine
end

