-- ==== Sys2Proof/Machine/Engine.lean ====
section
/-! DEFINITION. The transaction engine (40_channel.md section 2): present a transaction, settle it with the status the
transport returned, and run an operation to its end. One `transact` is one step of the sequencer (R9, R113); `run`
repeats it for as long as the transport answers (log 1). -/

namespace Sys2Proof.Machine

/-- Gives M.hist one record more (R113, R34). -/
def State.record (s : State) (t : Txn) (st : Status) : State :=
  { s with m := { s.m with hist := s.m.hist ++ [⟨t, st⟩] } }

/-- Presents a transaction to the transport (R113 (1)). The sender's mark for an out-of-range cursor is added here,
before any status is known (R130, R165). -/
def State.present (s : State) (p : Planned) : State :=
  let s := { s with port := { s.port with bus := some p.txn } }
  if p.outOfRange then s.setFaults s.m.faults.addCursorOutOfRange else s

/-- The outstanding transaction has returned `st`: it leaves the port, is recorded (R113 (3), (4)), and the receiver
reacts in the same step (R113, R175). -/
def State.settle (s : State) (t : Txn) (st : Status) : State :=
  let s := { s with port := { s.port with bus := none } }.record t st
  match t.kind, t.unit with
  | .write, some (c, p) => if st = 0 then receive t.origin c p s else rxFailedWrite t.origin s
  | .write, none | .probe, _ => s

/-- The result an operation ends with when its expansion is done (R152, R153, R200). -/
def State.complete (s : State) (op : OpLatch) : State :=
  if meetsUnsupported op then s.raise .unsupported else s.finish (op.code = 0)

/-- Goes on with the operation in progress: presents `expand(SEQ.op)[SEQ.idx]`, or ends the operation where the list ends
(R24, R114). -/
def State.advance (s : State) (op : OpLatch) : State :=
  match (expand op)[s.seq.idx]? with
  | some p => s.present p
  | none => s.complete op

/-- `SEQ.idx <- SEQ.idx + 1` (R24, R114). -/
def State.countUnit (s : State) : State := { s with seq := { s.seq with idx := s.seq.idx + 1 } }

/-- What the sequencer does with a status once its transaction is settled: stop at the first non-zero status (R114,
R116, R201; for PROBE it is the result, R124), else count the unit and go on. A transaction of a block that is not busy
has nothing to go on with. DESIGN CHOICE (log 16): every transaction that was outstanding on a busy block is taken for
the operation's own, also one that a micro-operation executed by itself left there; no run from reset has such a one. -/
def State.proceed (s : State) (st : Status) : State :=
  if s.seq.busy then
    match s.seq.op with
    | some op => if st = 0 then s.countUnit.advance op else s.raise (.busFailure st)
    | none => s
  else s

/-- One step of the sequencer (R113): the outstanding transaction returns with status `st`, and the next one is
presented or the operation ends. -/
def State.transact (s : State) (st : Status) : State :=
  match s.port.bus with
  | some t => (s.settle t st).proceed st
  | none => s

/-- Gives the transport other answers (log 2). -/
def State.setAnswers (s : State) (as : List Status) : State := { s with port := { s.port with answers := as } }

/-- The sequencer runs for as long as a transaction is outstanding and the transport answers (R67, R113, R114). It leaves
the answers it has not used to the transport; no transaction reads them. -/
def State.runOn (s : State) : List Status → State
  | [] => s.setAnswers []
  | st :: as =>
    if s.port.bus.isSome then (s.transact st).runOn as else s.setAnswers (st :: as)

/-- Runs the sequencer with the answers the transport has (R114). -/
def State.run (s : State) : State := s.runOn s.port.answers

/-- Whether a request is accepted: no operation is in progress and no transaction is outstanding (R23, R36). -/
def State.idle (s : State) : Bool := !s.seq.busy && !s.port.bus.isSome

/-- Accepts a request (R21, R23, R24): the latch is written, `busy` set, `idx` 0, `done` low. -/
def State.accept (s : State) (op : OpLatch) (want : Nat) : State :=
  { s with
    seq := { s.seq with busy := true, op := some op, idx := 0, want := want }
    port := { s.port with done := false } }

/-- Performs an operation (R114, R207): accepted, expanded and run to its end, or to the transaction the transport has
not completed (R113, R240). A request presented while the block is busy is not accepted and has no effect (R23). -/
def State.perform (s : State) (op : OpLatch) : State :=
  if s.idle then ((s.accept op 0).advance op).run else s

end Sys2Proof.Machine
end

