-- ==== Sys2Proof/Machine/Bitmap.lean ====
section
/-! DEFINITION. DRAW_BITMAP (45_bitmap.md). -/

namespace Sys2Proof.Machine

/-- DRAW_BITMAP x, y (R165 to R168): the 25 cells in raster order, each a cursor-set and eight data units; an
out-of-range cell adds the mark CursorOutOfRange when its first cursor unit is about to be issued. -/
def execDrawBitmap (x y : Byte) (s : State) : Host.Outcome State Fault Refusal :=
  .next (s.perform (latch 7 x y 0 false []))

end Sys2Proof.Machine
end

