-- ==== Sys2Proof/Machine/Channel.lean ====
section
/-! DEFINITION. The micro-operations CMD and DAT and the probe transaction PRB (40_channel.md section 1), each one
transaction by itself. What an operation does with the returned status is the engine's (R114, log 16). -/

namespace Sys2Proof.Machine

/-- The origin of a command unit: InitCfg exactly for the first INIT_LEN units of an INITIALIZE (R99, R34). -/
def cmdOrigin (s : State) : Origin :=
  match s.seq.op with
  | some op => if op.code = 0 && s.seq.idx < Config.initLen then .initCfg else .cursor
  | none => .cursor

/-- Performs one transaction (R113): presents it, and settles it if the transport answers. While another transaction is
outstanding it is not presented: there is one at a time (R36). DESIGN CHOICE (log 16): on a busy block with nothing
outstanding, such as one that waits for character words, an unanswered transaction stays on the port and is from then on
the operation's, see `State.proceed`; no run from reset gets there. -/
def State.performTxn (s : State) (t : Txn) : State :=
  if s.port.bus.isSome then s
  else match s.port.answers with
    | [] => { s with port := { s.port with bus := some t } }
    | st :: as => (s.setAnswers as).settle t st

/-- CMD b (R110): the write transaction of `[0x00, b]`; a command byte that is delivered and that the receiver has no rule
for is refused (R185, log 17). -/
def execCmd (b : Byte) (s : State) : Host.Outcome State Fault Refusal :=
  let t := Txn.command b (cmdOrigin s)
  match s.port.bus, s.port.answers with
  | none, st :: _ => if deliverable t st then .next (s.performTxn t) else .refused .unitWithoutMeaning
  | none, [] | some _, _ => .next (s.performTxn t)

/-- DAT d (R111): the write transaction of `[0x40, d]`. -/
def execDat (d : Byte) (s : State) : Host.Outcome State Fault Refusal := .next (s.performTxn (.data d))

/-- PRB (R112): the probe transaction; the receiver does not change (R186). -/
def execPrb (s : State) : Host.Outcome State Fault Refusal := .next (s.performTxn .probe)

end Sys2Proof.Machine
end

