-- ==== Sys2Proof/Machine/Cursor.lean ====
section
/-! DEFINITION. SET_CURSOR (42_cursor.md). -/

namespace Sys2Proof.Machine

/-- SET_CURSOR x, y (R130 to R132): the three units of `cursor(x, y)`, sent whatever the operands are; an out-of-range
position adds the mark CursorOutOfRange before the first of them. -/
def execSetCursor (x y : Byte) (s : State) : Host.Outcome State Fault Refusal :=
  .next (s.perform (latch 2 x y 0 false []))

end Sys2Proof.Machine
end

