-- ==== Sys2Proof/Machine/Fill.lean ====
section
/-! DEFINITION. CLEAR_ALL and FILL_ALL (43_fill.md). -/

namespace Sys2Proof.Machine

/-- CLEAR_ALL (R140, R143): 1024 data units 0x00 from whatever the cursor is. -/
def execClearAll (s : State) : Host.Outcome State Fault Refusal := .next (s.perform (latch 3 0 0 0 false []))

/-- FILL_ALL (R141, R143): 1024 data units 0xFF from whatever the cursor is. -/
def execFillAll (s : State) : Host.Outcome State Fault Refusal := .next (s.perform (latch 4 0 0 0 false []))

end Sys2Proof.Machine
end

