-- ==== Sys2Proof/Machine/GlyphText.lean ====
section
/-! DEFINITION. DRAW_GLYPH, DRAW_TEXT and the character words (44_glyph_text.md, R84). -/

namespace Sys2Proof.Machine

/-- DRAW_GLYPH ch, inv (R150 to R152): seven data units, or UNSUPPORTED_CHARACTER before any unit. -/
def execDrawGlyph (ch : Byte) (inv : Bool) (s : State) : Host.Outcome State Fault Refusal :=
  .next (s.perform (latch 5 0 0 ch inv []))

/-- DRAW_TEXT text, x, y, inv with its character words (R153, R154): the three cursor units, seven data units for each
character before the first unsupported one, then UNSUPPORTED_CHARACTER if there is one. -/
def execDrawText (text : List Byte) (x y : Byte) (inv : Bool) (s : State) : Host.Outcome State Fault Refusal :=
  .next (s.perform (latch 6 x y 0 inv text))

/-- A DRAW_TEXT request word whose character words are not all on the port yet: it is accepted, and the block waits for
`len` character words before it issues the first transaction (R84). -/
def State.acceptTextHeader (s : State) (w : Word) : State :=
  s.accept (latch 6 (fieldX w) (fieldY w) 0 (fieldInv w) []) (fieldCh w).toNat

/-- Takes one awaited character word into the latch; the last one starts the operation (R84). Nothing is outstanding then:
`execCharWord` sees to it. -/
def State.takeCharacter (s : State) (op : OpLatch) (c : Byte) : State :=
  let op' := { op with text := op.text ++ [c] }
  let s' := { s with seq := { s.seq with op := some op', want := s.seq.want - 1 } }
  if s'.seq.want = 0 then (s'.advance op').run else s'

/-- CHAR_WORD c (R84): taken while a DRAW_TEXT waits for it; held off with no effect while the block is busy with
anything else (R23); on an idle block the word would be a request, so there is no character word there (log 18). DESIGN
CHOICE (log 16): while a transaction is outstanding on a waiting block, which only a micro-operation executed by itself
can leave there, no character word is taken, so that transaction stays on the port; no run from reset gets there. -/
def execCharWord (c : Byte) (s : State) : Host.Outcome State Fault Refusal :=
  match s.seq.busy, s.seq.op with
  | true, some op => .next (if s.seq.want = 0 ∨ s.port.bus.isSome then s else s.takeCharacter op c)
  | true, none => .next s
  | false, _ => .refused .characterOutsideText

end Sys2Proof.Machine
end

