-- ==== Sys2Proof/Machine/System.lean ====
section
/-! DEFINITION. INITIALIZE and PROBE (41_init_probe.md). -/

namespace Sys2Proof.Machine

/-- INITIALIZE (R120 to R123): the INIT_LEN configuration units and the three cursor units of (0, 0); `ready` is set when
all of them returned 0. -/
def execInitialise (s : State) : Host.Outcome State Fault Refusal := .next (s.perform (latch 0 0 0 0 false []))

/-- PROBE (R124): one probe transaction whose status is the result, unchanged; a non-zero one adds no mark. -/
def execProbe (s : State) : Host.Outcome State Fault Refusal := .next (s.perform (latch 1 0 0 0 false []))

end Sys2Proof.Machine
end

