-- ==== Sys2Proof/Machine/Dispatch.lean ====
section
/-! DEFINITION. The meaning of each row of spec/opcode_table.json. -/

namespace Sys2Proof.Machine

def exec (i : Instr) (s : State) : Host.Outcome State Fault Refusal :=
  match i with
  | .initialise => Sys2Proof.Machine.execInitialise s
  | .probe => Sys2Proof.Machine.execProbe s
  | .setCursor x y => Sys2Proof.Machine.execSetCursor x y s
  | .clearAll => Sys2Proof.Machine.execClearAll s
  | .fillAll => Sys2Proof.Machine.execFillAll s
  | .drawGlyph ch inv => Sys2Proof.Machine.execDrawGlyph ch inv s
  | .drawText text x y inv => Sys2Proof.Machine.execDrawText text x y inv s
  | .drawBitmap x y => Sys2Proof.Machine.execDrawBitmap x y s
  | .charWord c => Sys2Proof.Machine.execCharWord c s
  | .dataWr d => Sys2Proof.Machine.execDataWr d s
  | .pageSel p => Sys2Proof.Machine.execPageSel p s
  | .colLo n => Sys2Proof.Machine.execColLo n s
  | .colHi n => Sys2Proof.Machine.execColHi n s
  | .cfg b => Sys2Proof.Machine.execCfg b s
  | .prb => Sys2Proof.Machine.execPrb s
  | .cmd b => Sys2Proof.Machine.execCmd b s
  | .dat d => Sys2Proof.Machine.execDat d s

end Sys2Proof.Machine
end

