-- ==== Sys2Proof/Machine/Fetch.lean ====
section
/-! DEFINITION. What the machine does next (R10, R23, R84, R113): complete the outstanding transaction, take a character
word, or take a request; and how an instruction is placed there. -/

namespace Sys2Proof.Machine

/-- What the state says comes next. -/
inductive Fetched where
  /-- The block waits: for the transport (R113, R240), for a character word (R84) or for a request (R230). -/
  | wait
  /-- The outstanding transaction returns with this status (R113). -/
  | unit (t : Txn) (st : Status)
  /-- The operation in progress presents its next transaction (R24). -/
  | resume (op : OpLatch)
  /-- A character word is taken; the words after it stay on the port (R84). -/
  | character (i : Instr) (rest : List Word)
  /-- A whole request is taken (R81, R84). -/
  | request (i : Instr) (rest : List Word)
  /-- A DRAW_TEXT request word is taken before all of its character words are there (R84). -/
  | textHeader (w : Word) (rest : List Word)
  /-- `busy` is set and SEQ.op holds no value (R21). -/
  | emptyLatch
  deriving DecidableEq, Repr

/-- Reads the request port of an idle block (R23, R81, R84). -/
def fetchRequest (ws : List Word) : Fetched :=
  match ws with
  | [] => .wait
  | w :: rest =>
    match decodeRequest (w :: rest) with
    | .ok (i, rest') => .request i rest'
    | .error _ => .textHeader w rest

/-- Reads the request port of a block that waits for a character word (R84). -/
def fetchCharacter (ws : List Word) : Fetched :=
  match ws with
  | [] => .wait
  | w :: rest => .character (decodeCharacter w) rest

/-- What comes next. -/
def fetch (s : State) : Fetched :=
  match s.port.bus, s.port.answers with
  | some t, st :: _ => .unit t st
  | some _, [] => .wait
  | none, _ =>
    match s.seq.busy, s.seq.op with
    | false, _ => fetchRequest s.port.req
    | true, none => .emptyLatch
    | true, some op => if s.seq.want = 0 then .resume op else fetchCharacter s.port.req

/-- Gives the host's request port other words. -/
def State.setReq (s : State) (ws : List Word) : State := { s with port := { s.port with req := ws } }

/-! ## Placing an instruction (log 4) -/

/-- How many transactions an instruction performs when none fails (R93). -/
def transactionsOf (i : Instr) : Nat :=
  match latchOf i with
  | some op => (expand op).length
  | none => 0

/-- Puts a request on the port of an idle block, and lets the transport answer 0 to each of its transactions. -/
def State.placeRequest (s : State) (ws : List Word) : State :=
  let n := match decodeRequest ws with
    | .ok (i, _) => transactionsOf i
    | .error _ => 0
  { s with
    seq := { s.seq with busy := false, op := none, want := 0 }
    port := { s.port with req := ws, bus := none, answers := List.replicate n 0 ++ s.port.answers } }

/-- Puts a transaction on the bus of a block with no operation in progress, and lets the transport answer 0 to it. -/
def State.placeTxn (s : State) (t : Txn) : State :=
  { s with
    seq := { s.seq with busy := false, op := none, want := 0 }
    port := { s.port with bus := some t, answers := 0 :: s.port.answers } }

/-- Places the instruction with the table bits `w` where the next step takes it; the bits are read as
`decodeTableWord` reads them. -/
def State.placeTableWord (s : State) (nbits w : Nat) : State :=
  match nbits with
  | 0 => s.placeTxn .probe
  | 16 =>
    let ctrl := BitVec.ofNat 8 (w / 256)
    let payload := BitVec.ofNat 8 w
    s.placeTxn (.ofUnit ctrl payload (tableOrigin ctrl payload))
  | 32 => s.placeRequest (tableRequest w)
  | _ => s

end Sys2Proof.Machine
end

