-- ==== Sys2Proof/Machine/Step.lean ====
section
/-! DEFINITION. One step of the machine: it does what comes next and runs on until it waits for the host or for the
transport (log 1). -/

namespace Sys2Proof.Machine

/-- One step. -/
def step (s : State) : Host.Outcome State Fault Refusal :=
  match fetch s with
  | .wait => .next s
  | .unit t st => if deliverable t st then .next s.run else .refused .unitWithoutMeaning
  | .resume op => .next (s.advance op).run
  | .character i rest => exec i (s.setReq rest)
  | .request i rest => exec i (s.setReq rest)
  | .textHeader w rest => .next ((s.setReq rest).acceptTextHeader w)
  | .emptyLatch => .fault .operationLatchEmpty

/-- `s` with the instruction of these table bits where the next step takes it (log 4). -/
def State.withFetchWord (s : State) (nbits w : Nat) : State := s.placeTableWord nbits w

end Sys2Proof.Machine
end

