-- ==== Sys2Proof/Safety.lean ====
section
/-! DEFINITION. What a claim may speak about: a state without fault marks (R203), what the display shows (R51, R188), and
states of the sequencer that a run can reach. -/

namespace Sys2Proof.Machine

/-- A claim about displayed content takes "`M.faults` is empty" as a premise (R203). -/
abbrev State.Unmarked (s : State) : Prop := s.m.faults = Marks.none

/-- The pixel `(px, py)`: bit `py mod 8` of `RX.FB[py / 8][px]`, where that byte holds a value; 1 is a lit pixel (R51,
R188). DESIGN CHOICE (log 28): it answers the bit in every state, while R188 says what the display shows only for
`SEQ.ready = 1` and empty `M.faults`; a claim about the display takes both as premises. -/
def State.pixel (s : State) (px : BitVec 7) (py : BitVec 6) : Option Bool :=
  (s.rx.fb.at (py.extractLsb' 3 3) px).map fun b => b.getLsbD (py.extractLsb' 0 3).toNat

/-- The receiver's cursor is at linear position `L` (R73). -/
abbrev State.CursorAt (s : State) (L : Nat) : Prop := lin s.rx.page s.rx.col = L

/-- A transaction of the shapes the block produces (R8, R86, R98, R103): a write to ADDR8 of a unit the receiver has a
rule for, or a probe of ADDR8 without a unit. -/
def Txn.legal (t : Txn) : Bool :=
  t.addr = Config.addr8 &&
    match t.kind, t.unit with
    | .write, some (c, p) => (decodeUnit t.origin c p).isOk
    | .probe, none => t.origin = .probe
    | .write, none | .probe, some _ => false

/-- The sequencer is in one of the situations of R21 to R24, R36 and R84: idle with an empty latch and nothing
outstanding; waiting for the character words of a DRAW_TEXT; or with `expand(SEQ.op)[SEQ.idx]` outstanding. -/
def State.consistent (s : State) : Bool :=
  match s.seq.busy, s.seq.op with
  | false, none => s.port.bus.isNone && s.seq.want = 0
  | false, some _ | true, none => false
  | true, some op =>
    if s.seq.want = 0 then
      s.port.bus.isSome && ((expand op)[s.seq.idx]?.map Planned.txn) = s.port.bus
    else op.code = 6 && s.port.bus.isNone && s.seq.idx = 0 && op.text.length + s.seq.want ≤ 255

/-- Every mark of `f` is in `g` (R31: marks are only ever added). -/
abbrev Marks.le (f g : Marks) : Prop :=
  (f.cursorOutOfRange → g.cursorOutOfRange) ∧ (f.busFailure → g.busFailure) ∧ (f.dataBeforeInit → g.dataBeforeInit)

/-- `kind = 1` if and only if `status ≠ 0`, and `kind` never takes the value 3 (R25). -/
def Result.wf (r : Result) : Bool := (r.kind = kindBusFailure) = (r.status ≠ 0) && r.kind ≠ 3

end Sys2Proof.Machine
end

