-- ==== Sys2Proof/Certificates/Slice0/Obligations.lean ====
section
/-! DEFINITION. The statements for the provers, taken from the numbered rules of spec/. -/

open Sys2Proof Sys2Proof.Machine

/-! ## Words used by the statements -/

namespace Sys2Proof.Statements

/-- The request word whose fields hold these values, as the number R81 makes of them. -/
def requestNumber (code rsv inv ch y x : Nat) : Word :=
  BitVec.ofNat 32 (code * 2 ^ 29 + rsv * 2 ^ 25 + inv * 2 ^ 24 + ch * 2 ^ 16 + y * 2 ^ 8 + x)

/-- The bits of a request word that its operation uses (R82). -/
def usedBits (code : BitVec 3) : Word :=
  match code.toNat with
  | 2 | 7 => 0xE000FFFF
  | 5 => 0xE1FF0000
  | 6 => 0xE1FFFFFF
  | _ => 0xE0000000

/-- How many character words follow a request word (R84). -/
def charactersAfter (w : Word) : Nat := if fieldCode w = 6 then (fieldCh w).toNat else 0

/-- The record of a delivered command unit `[00 b]`. -/
def commandRecord (o : Origin) (b : Nat) : Record :=
  ⟨⟨.write, Config.addr8, some (0x00, BitVec.ofNat 8 b), o⟩, 0⟩

/-- The record of a delivered data unit `[40 d]`. -/
def dataRecord (d : Byte) : Record := ⟨⟨.write, Config.addr8, some (0x40, d), .data⟩, 0⟩

/-- The three records of a delivered cursor-set: page select, low nibble, high nibble (R59, R131). -/
def cursorRecords (x y : Nat) : List Record :=
  [commandRecord .cursor (0xB0 + y % 8), commandRecord .cursor (x % 16), commandRecord .cursor (0x10 + x / 16 % 16)]

/-- The sequencer after an operation that ended with result `r` after `n` units returned 0 (R200, R207). That SEQ.idx
then keeps its number is the model's choice (log 21). -/
def ended (q : Seq) (r : Result) (n : Nat) : Seq :=
  { q with busy := false, op := none, idx := n, res := r, want := 0 }

/-- The ports after an operation that used all answers but `rest`. That `done` stays high until the next request and that
the transport's answers are a list are the model's choices (logs 13 and 2). -/
def portAfter (p : Port) (rest : List Status) : Port := { p with bus := none, answers := rest, done := true }

/-- An idle block whose transport answers 0 `n` times, then `rest`. -/
def IdleWithZeros (s : State) (n : Nat) (rest : List Status) : Prop :=
  s.idle = true ∧ s.port.answers = List.replicate n 0 ++ rest

/-- The bytes `ds` stand at the linear positions from `L` on, every other byte is as it was (R187). -/
def Stored (before after : Memory) (L : Nat) (ds : List Byte) : Prop :=
  ∀ a, after.read a = if L ≤ a ∧ a < L + ds.length then ds[a - L]? else before.read a

/-- Runs instructions one after another, stopping at the first that has no next state. -/
def execAll : List Instr → State → Host.Outcome State Fault Refusal
  | [], s => .next s
  | i :: is, s =>
    match exec i s with
    | .next t => execAll is t
    | .fault f => .fault f
    | .refused r => .refused r

/-- What the sequencer side of the machine is: everything but the receiver, the marks and the draws. -/
def SameSequencer (s t : State) : Prop := s.seq = t.seq ∧ s.port = t.port ∧ s.m.hist = t.m.hist

/-- Every transaction issued or outstanding has a shape the block produces (R8, R98). -/
def OnlyLegal (s : State) : Prop :=
  (∀ r ∈ s.m.hist, r.txn.legal = true) ∧ ∀ t, s.port.bus = some t → t.legal = true

end Sys2Proof.Statements

open Sys2Proof.Statements

/-! ## Encodings (30_encoding.md) -/

/-- R85: the worked encodings, both ways. -/
def Obligations.WorkedRequestWords : Prop :=
  ∀ row ∈ ([(.initialise, [0x00000000]), (.probe, [0x20000000]), (.setCursor 5 3, [0x40000305]),
      (.setCursor 127 7, [0x4000077F]), (.clearAll, [0x60000000]), (.fillAll, [0x80000000]),
      (.drawGlyph 0x41 false, [0xA0410000]), (.drawGlyph 0x41 true, [0xA1410000]),
      (.drawText [0x41, 0x42] 10 2 false, [0xC002020A, 0x00000041, 0x00000042]),
      (.drawText [] 0 0 true, [0xC1000000]), (.drawBitmap 44 1, [0xE000012C])] : List (Instr × List Word)),
    encode row.1 = .words row.2 ∧ decode .request (.words row.2) = .ok row.1

/-- R81, R82: every field is read and written at its place; the reserved bits and the fields an operation does not use
are ignored on decode and written 0. -/
def Obligations.RequestFieldsStandAtTheirPlaces : Prop :=
  ∀ (rsv : BitVec 4) (inv : Bool) (ch y x : Byte) (ws : List Word),
    let word := fun code => requestNumber code rsv.toNat inv.toNat ch.toNat y.toNat x.toNat
    decodeRequest (word 0 :: ws) = .ok (.initialise, ws) ∧
    decodeRequest (word 1 :: ws) = .ok (.probe, ws) ∧
    decodeRequest (word 2 :: ws) = .ok (.setCursor x y, ws) ∧
    decodeRequest (word 3 :: ws) = .ok (.clearAll, ws) ∧
    decodeRequest (word 4 :: ws) = .ok (.fillAll, ws) ∧
    decodeRequest (word 5 :: ws) = .ok (.drawGlyph ch inv, ws) ∧
    (ch.toNat ≤ ws.length → decodeRequest (word 6 :: ws) =
      .ok (.drawText ((ws.take ch.toNat).map (BitVec.extractLsb' 0 8)) x y inv, ws.drop ch.toNat)) ∧
    decodeRequest (word 7 :: ws) = .ok (.drawBitmap x y, ws) ∧
    encode .initialise = .words [requestNumber 0 0 0 0 0 0] ∧
    encode .probe = .words [requestNumber 1 0 0 0 0 0] ∧
    encode (.setCursor x y) = .words [requestNumber 2 0 0 0 y.toNat x.toNat] ∧
    encode .clearAll = .words [requestNumber 3 0 0 0 0 0] ∧
    encode .fillAll = .words [requestNumber 4 0 0 0 0 0] ∧
    encode (.drawGlyph ch inv) = .words [requestNumber 5 0 inv.toNat ch.toNat 0 0] ∧
    (∀ text : List Byte, text.length ≤ 255 → encode (.drawText text x y inv) =
      .words (requestNumber 6 0 inv.toNat text.length y.toNat x.toNat :: text.map (BitVec.zeroExtend 32))) ∧
    encode (.drawBitmap x y) = .words [requestNumber 7 0 0 0 y.toNat x.toNat]

/-- R83, R84, R86 to R92, R103: decode of encode is the identity on every well-formed instruction of every row, at every
value of every operand, and a request leaves the words after it on the port. -/
def Obligations.DecodeOfEncodeIsTheInstruction : Prop :=
  ∀ i : Instr, i.wf = true →
    decode i.place (encode i) = .ok i ∧
    ∀ ws rest, i.place = .request → encode i = .words ws → decodeRequest (ws ++ rest) = .ok (i, rest)

/-- R83: decoding is total; bits outside the fields an operation uses do not matter; decode-then-assemble is the identity
on canonical words and on no others. -/
def Obligations.DecodingIsTotalAndIgnoresUnusedBits : Prop :=
  (∀ (w : Word) (cs rest : List Word), cs.length = charactersAfter w →
    ∃ i, i.place = .request ∧ i.wf = true ∧ decodeRequest (w :: cs ++ rest) = .ok (i, rest)) ∧
  (∀ (w w' : Word) (ws : List Word),
    w &&& usedBits (fieldCode w) = w' &&& usedBits (fieldCode w) → decodeRequest (w :: ws) = decodeRequest (w' :: ws)) ∧
  (∀ i : Instr, i.wf = true → i.place = .request → decode .request (encode i) = .ok i) ∧
  (∀ (w : Word) (cs : List Word) (i : Instr), decodeRequest (w :: cs) = .ok (i, []) →
    (encode i = .words (w :: cs) ↔ w &&& usedBits (fieldCode w) = w ∧ ∀ c ∈ cs, c &&& 0xFF = c))

/-- R86 to R92, R98, R99: what a unit is at the receiver, by its control byte, its origin and its payload. -/
def Obligations.UnitsAreClassified : Prop :=
  ∀ b c : Byte,
    (decodeUnit .cursor 0x00 b =
      if 0xB0 ≤ b.toNat ∧ b.toNat ≤ 0xB7 then .ok (.pageSel (BitVec.ofNat 3 (b.toNat - 0xB0)))
      else if b.toNat ≤ 0x0F then .ok (.colLo (BitVec.ofNat 4 b.toNat))
      else if 0x10 ≤ b.toNat ∧ b.toNat ≤ 0x1F then .ok (.colHi (BitVec.ofNat 4 (b.toNat - 0x10)))
      else .error .noSuchCommand) ∧
    decodeUnit .initCfg 0x00 b = .ok (.cfg b) ∧
    decodeUnit .data 0x40 b = .ok (.dataWr b) ∧
    (c ≠ 0x00 → decodeUnit .cursor c b = .error .badControlByte ∧ decodeUnit .initCfg c b = .error .badControlByte) ∧
    (c ≠ 0x40 → decodeUnit .data c b = .error .badControlByte)

/-! ## Operands -/

/-- R94, R95: the command bytes of a position as numbers, for every column and page value; the column is recovered from
the two nibbles. That the page byte is masked for `8 ≤ r` is the spec's own resolution (R95, D10; log 25). -/
def Obligations.PositionBytes : Prop :=
  (∀ c : Nat, colLoByte c = BitVec.ofNat 8 (c % 16) ∧ colHiByte c = BitVec.ofNat 8 (0x10 + c / 16 % 16)) ∧
  (∀ c : Byte, (colLoByte c.toNat &&& 0x0F) ||| ((colHiByte c.toNat &&& 0x0F) <<< 4) = c) ∧
  (∀ r : Nat, pageByte r = BitVec.ofNat 8 (0xB0 + r % 8)) ∧
  (∀ r : Nat, r < 8 → pageByte r = BitVec.ofNat 8 (0xB0 + r))

/-- R151: the seven data units of a glyph, for every supported character: the margins and the columns, complemented when
inverted; and the two rows of the source's examples. -/
def Obligations.GlyphIsSevenBytes : Prop :=
  (∀ (ch : Byte) (h : 32 ≤ ch.toNat ∧ ch.toNat ≤ 122),
    let f := Config.font ⟨ch.toNat - 32, by omega⟩
    glyphBytes ch false = [0x00, f 0, f 1, f 2, f 3, f 4, 0x00] ∧
    glyphBytes ch true = [0xFF, ~~~f 0, ~~~f 1, ~~~f 2, ~~~f 3, ~~~f 4, 0xFF] ∧
    ∀ inv, (expand (latch 5 0 0 ch inv [])).map Planned.txn =
      (glyphBytes ch inv).map fun d => ⟨.write, Config.addr8, some (0x40, d), .data⟩) ∧
  glyphBytes 0x41 false = [0x00, 0x7E, 0x11, 0x11, 0x11, 0x7E, 0x00] ∧
  glyphBytes 0x41 true = [0xFF, 0x81, 0xEE, 0xEE, 0xEE, 0x81, 0xFF]

/-- R93: how many transactions each operation performs when none fails, and INIT_LEN is at least 16 (R7). -/
def Obligations.ExpansionLengths : Prop :=
  16 ≤ Config.initLen ∧
  ∀ i op, latchOf i = some op → (expand op).length =
    match i with
    | .initialise => Config.initLen + 3
    | .probe => 1
    | .setCursor _ _ => 3
    | .clearAll | .fillAll => 1024
    | .drawGlyph ch _ => if 32 ≤ ch.toNat ∧ ch.toNat ≤ 122 then 7 else 0
    | .drawText text _ _ _ => 3 + 7 * (text.takeWhile fun c => 32 ≤ c.toNat && c.toNat ≤ 122).length
    | .drawBitmap _ _ => 275
    | .charWord _ | .dataWr _ | .pageSel _ | .colLo _ | .colHi _ | .cfg _ | .prb | .cmd _ | .dat _ => 0

/-- R101: a DRAW_TEXT without characters performs the transactions of SET_CURSOR; with one supported character those of
SET_CURSOR and then those of DRAW_GLYPH. -/
def Obligations.TextIsCursorThenGlyphs : Prop :=
  ∀ (x y c : Byte) (inv : Bool) (text : List Byte),
    expand (latch 6 x y 0 inv []) = expand (latch 2 x y 0 false []) ∧
    (supported c = true → expand (latch 6 x y 0 inv [c]) =
      expand (latch 2 x y 0 false []) ++ expand (latch 5 0 0 c inv [])) ∧
    ((∀ d ∈ text, supported d = true) → expand (latch 6 x y 0 inv (text ++ [c])) =
      expand (latch 6 x y 0 inv text) ++ expand (latch 5 0 0 c inv []))

/-! ## Reset and the step -/

/-- R35, R230: the sequencer and the model's bookkeeping after reset; no byte of the surface holds a value; the block is
idle and does nothing until the first request. That reset leaves no words, no answers, `done` low and no character word
awaited, and that a step without a request is a next state, are the model's choices (logs 2, 3, 13, 14, 27). -/
def Obligations.ResetIsIdle : Prop :=
  State.reset.seq = { ready := false, busy := false, op := none, idx := 0, res := ⟨0, 0⟩, want := 0 } ∧
  State.reset.port = { req := [], bus := none, answers := [], done := false } ∧
  State.reset.m.faults = ⟨false, false, false⟩ ∧ State.reset.m.hist = [] ∧
  (∀ p c, State.reset.rx.fb.at p c = none) ∧
  step State.reset = .next State.reset

/-- R23, R84, R113: the step takes the request of an idle block, the character word of a waiting one, and the
outstanding transaction of a running one, and runs exactly the decoded instruction; the sequencer goes on after a
transaction (`proceed`) and runs while the transport answers (`runOn`). -/
def Obligations.StepRunsTheDecodedInstruction : Prop :=
  (∀ (s : State) (i : Instr) (rest : List Word), s.idle = true → decodeRequest s.port.req = .ok (i, rest) →
    step s = exec i (s.setReq rest)) ∧
  (∀ (s : State) (op : OpLatch) (w : Word) (rest : List Word), s.seq.busy = true → s.seq.op = some op →
    s.seq.want ≠ 0 → s.port.bus = none → s.port.req = w :: rest →
    step s = exec (.charWord (BitVec.extractLsb' 0 8 w)) (s.setReq rest)) ∧
  (∀ (s : State) (w : Word) (rest : List Word) (e : DecodeError), s.idle = true → s.port.req = w :: rest →
    decodeRequest (w :: rest) = .error e → step s = .next ((s.setReq rest).acceptTextHeader w)) ∧
  (∀ (s : State) (c p : Byte) (o : Origin) (i : Instr) (as : List Status),
    s.port.bus = some (.ofUnit c p o) → s.port.answers = 0 :: as → decodeUnit o c p = .ok i →
    ∃ t, exec i ({ s with port := { s.port with bus := none } }.record (.ofUnit c p o) 0) = .next t ∧
      step s = .next ((t.proceed 0).runOn as)) ∧
  (∀ (s : State) (st : Status) (as : List Status), s.port.bus = some .probe → s.port.answers = st :: as →
    ∃ t, exec .prb { s with port := { s.port with bus := none } } = .next t ∧ step s = .next ((t.proceed st).runOn as))

/-! ## Operations in general (R114, R200 to R207) -/

/-- R114, R200: every operation requested of an idle block whose transport answers 0 throughout completes: it issues
exactly its expansion, in order, ends with OK (or UNSUPPORTED_CHARACTER where it meets one), and leaves the block idle. -/
def Obligations.OperationsComplete : Prop :=
  ∀ (i : Instr) (op : OpLatch) (s : State) (rest : List Status), latchOf i = some op →
    IdleWithZeros s (expand op).length rest →
    ∃ t, exec i s = .next t ∧
      t.seq = { ended s.seq (if meetsUnsupported op then ⟨2, 0⟩ else ⟨0, 0⟩) (expand op).length with
        ready := s.seq.ready || (i = .initialise : Bool) } ∧
      t.port = portAfter s.port rest ∧
      t.m.hist = s.m.hist ++ (expand op).map fun p => ⟨p.txn, 0⟩

/-- R114, R201, R206, R207: the first non-zero status ends an operation: the units before it were issued and returned 0,
the failing one was issued once, none after it; the result is the status verbatim; `ready` is as before. A failed write
adds the mark BusFailure; a failed probe changes nothing but the result (R124). That no unit after the failing one is
issued is the spec's decision D7, a premise of every claim that relies on it (R114, R207; log 25). -/
def Obligations.FirstFailureEndsTheOperation : Prop :=
  ∀ (i : Instr) (op : OpLatch) (s : State) (n : Nat) (p : Planned) (st : Status) (rest : List Status),
    latchOf i = some op → (expand op)[n]? = some p → st ≠ 0 →
    s.idle = true → s.port.answers = List.replicate n 0 ++ st :: rest →
    ∃ t, exec i s = .next t ∧
      t.seq = ended s.seq ⟨1, st⟩ n ∧
      t.port = portAfter s.port rest ∧
      t.m.hist = s.m.hist ++ ((expand op).take n).map (fun q => ⟨q.txn, 0⟩) ++ [⟨p.txn, st⟩] ∧
      (p.txn.kind = .write → t.m.faults.busFailure = true) ∧
      (p.txn.kind = .probe → t.rx = s.rx ∧ t.m.faults = s.m.faults)

/-- R113, R240: while the transport has not completed a transaction, the block stays busy with that transaction on the
port and does nothing; no request is accepted. That a hang is a step that waits, that `done` is low meanwhile, the
answers as a list and the zeros in unused fields of the latch are the model's choices (logs 27, 13, 2, 20). -/
def Obligations.SilentTransportHoldsTheBlock : Prop :=
  ∀ (i : Instr) (op : OpLatch) (s : State) (n : Nat) (p : Planned), latchOf i = some op → (expand op)[n]? = some p →
    s.idle = true → s.port.answers = List.replicate n 0 →
    ∃ t, exec i s = .next t ∧
      t.seq = { s.seq with busy := true, op := some op, idx := n, want := 0 } ∧
      t.port = { s.port with bus := some p.txn, answers := [], done := false } ∧
      t.m.hist = s.m.hist ++ ((expand op).take n).map (fun q => ⟨q.txn, 0⟩) ∧
      step t = .next t ∧ ∀ j op', latchOf j = some op' → exec j t = .next t

/-- R67, R113: it makes no difference when the transport answers: an operation held after the answers `as` and resumed
with `bs` ends as the operation that had `as ++ bs` at once. The answers as a list and a step that runs as far as they
reach are the model's choices (logs 2 and 1). -/
def Obligations.HeldOperationResumes : Prop :=
  ∀ (i : Instr) (op : OpLatch) (s t : State) (as bs : List Status), latchOf i = some op → s.idle = true →
    exec i (s.setAnswers as) = .next t → t.port.bus ≠ none →
    step (t.setAnswers bs) = exec i (s.setAnswers (as ++ bs))

/-- R23: a request presented while the block is busy has no effect. -/
def Obligations.BusyBlockTakesNoRequest : Prop :=
  ∀ (i : Instr) (op : OpLatch) (s : State), latchOf i = some op → s.seq.busy = true → exec i s = .next s

/-! ## INITIALIZE and PROBE (41_init_probe.md) -/

/-- R120, R123: a successful INITIALIZE sends INIT_SEQ and the cursor-set of (0, 0), makes the block Ready, leaves the
cursor at (0, 0) and the surface as it was. That the configuration is then one fixed value is the model's reading of R122
(log 11). -/
def Obligations.InitialiseMakesReady : Prop :=
  ∀ (s : State) (rest : List Status), IdleWithZeros s (Config.initLen + 3) rest → s.Unmarked →
    ∃ t, exec .initialise s = .next t ∧
      t.seq = { ended s.seq ⟨0, 0⟩ (Config.initLen + 3) with ready := true } ∧
      t.port = portAfter s.port rest ∧
      t.rx = { page := 0, col := 0, fb := s.rx.fb, cfg := Config.cfgConfigured } ∧
      t.m.faults = s.m.faults ∧
      t.m.hist = s.m.hist ++ Config.initSeq.map (fun b => commandRecord .initCfg b.toNat) ++ cursorRecords 0 0

/-- R120, R123, R182, R183: an INITIALIZE after data units that were sent too early (vector P6) makes the block Ready and
leaves the cursor at (0, 0); the mark stays, so nothing is claimed of the display and of what later units do (R203, log
9). That the transport's answers are a list is the model's choice (log 2). -/
def Obligations.InitialiseAfterEarlyData : Prop :=
  ∀ (s : State) (rest : List Status), IdleWithZeros s (Config.initLen + 3) rest →
    s.m.faults = { Marks.none with dataBeforeInit := true } → s.seq.ready = false →
    ∃ t, exec .initialise s = .next t ∧ t.seq.ready = true ∧ t.seq.res = ⟨0, 0⟩ ∧ t.rx.page = 0 ∧ t.rx.col = 0 ∧
      t.m.faults = s.m.faults

/-- R122: INITIALIZE twice sends the same stream twice and leaves the state that one leaves, with the cursor at (0, 0). -/
def Obligations.InitialiseIsIdempotent : Prop :=
  ∀ (s t u : State) (rest : List Status),
    IdleWithZeros s (2 * (Config.initLen + 3)) rest → s.Unmarked →
    exec .initialise s = .next t → exec .initialise t = .next u →
    u.seq = t.seq ∧ u.rx = t.rx ∧ u.m.faults = t.m.faults ∧ u.rx.page = 0 ∧ u.rx.col = 0 ∧
    ∃ stream, t.m.hist = s.m.hist ++ stream ∧ u.m.hist = t.m.hist ++ stream

/-- R124: PROBE issues one probe and its result is the returned status unchanged, for every status; it reads and writes
neither `ready` nor the receiver and adds no mark. -/
def Obligations.ProbeReturnsTheStatus : Prop :=
  ∀ (s : State) (st : Status) (rest : List Status), s.idle = true → s.port.answers = st :: rest →
    exec .probe s = .next
      { seq := ended s.seq ⟨if st = 0 then 0 else 1, st⟩ (if st = 0 then 1 else 0)
        rx := s.rx
        port := portAfter s.port rest
        m := { s.m with hist := s.m.hist ++ [⟨⟨.probe, Config.addr8, none, .probe⟩, st⟩] } }

/-! ## SET_CURSOR (42_cursor.md) -/

/-- R130, R131, R133: an in-range SET_CURSOR whose three units are delivered sets PAGE and COL and nothing else of the
receiver, whatever they were before. -/
def Obligations.SetCursorMovesTheCursor : Prop :=
  ∀ (s : State) (x y : Byte) (rest : List Status), IdleWithZeros s 3 rest → s.Unmarked →
    x.toNat < 128 → y.toNat < 8 →
    exec (.setCursor x y) s = .next
      { seq := ended s.seq ⟨0, 0⟩ 3
        rx := { s.rx with page := BitVec.ofNat 3 y.toNat, col := BitVec.ofNat 7 x.toNat }
        port := portAfter s.port rest
        m := { s.m with hist := s.m.hist ++ cursorRecords x.toNat y.toNat } }

/-- R132, R215: the block does not check the range: the three units go out with the truncated values, the result is OK,
and exactly an out-of-range position adds the mark CursorOutOfRange. The page byte for `8 ≤ y` is the spec's own
resolution of C1 (R131, D10; log 25). -/
def Obligations.SetCursorDoesNotCheckTheRange : Prop :=
  ∀ (s : State) (x y : Byte) (rest : List Status), IdleWithZeros s 3 rest →
    ∃ t, exec (.setCursor x y) s = .next t ∧
      t.seq = ended s.seq ⟨0, 0⟩ 3 ∧ t.port = portAfter s.port rest ∧
      t.m.hist = s.m.hist ++ cursorRecords x.toNat y.toNat ∧
      t.m.faults = { s.m.faults with
        cursorOutOfRange := s.m.faults.cursorOutOfRange || decide (128 ≤ x.toNat ∨ 8 ≤ y.toNat) }

/-- R130: the mark of an out-of-range SET_CURSOR is there before any status is known. -/
def Obligations.OutOfRangeMarkComesFirst : Prop :=
  ∀ (s t : State) (x y : Byte), s.idle = true → 128 ≤ x.toNat ∨ 8 ≤ y.toNat → exec (.setCursor x y) s = .next t →
    t.m.faults.cursorOutOfRange = true

/-! ## CLEAR_ALL and FILL_ALL (43_fill.md) -/

/-- R140, R141, R142: a fill of a ready, unmarked display from cursor (0, 0) makes every byte of the surface the fill
byte; it sends 1024 data units and nothing else, and marks nothing. -/
def Obligations.FillCoversTheSurface : Prop :=
  ∀ i b, (i, b) ∈ [(Instr.clearAll, (0x00 : Byte)), (Instr.fillAll, (0xFF : Byte))] →
    ∀ (s : State) (rest : List Status), IdleWithZeros s 1024 rest → s.seq.ready = true → s.Unmarked → s.CursorAt 0 →
    ∃ t, exec i s = .next t ∧
      t.seq = ended s.seq ⟨0, 0⟩ 1024 ∧ t.port = portAfter s.port rest ∧ t.Unmarked ∧ t.rx.cfg = s.rx.cfg ∧
      t.m.hist = s.m.hist ++ List.replicate 1024 (dataRecord b) ∧
      ∀ p c, t.rx.fb.at p c = some b

/-- R142, R143: a fill does not position the cursor: from linear position `L` it covers `L` to 1023. That SEQ.idx keeps its
number after the end and that the transport's answers are a list are the model's choices (logs 21 and 2). -/
def Obligations.FillStartsAtTheCursor : Prop :=
  ∀ i b, (i, b) ∈ [(Instr.clearAll, (0x00 : Byte)), (Instr.fillAll, (0xFF : Byte))] →
    ∀ (s : State) (L : Nat) (rest : List Status), IdleWithZeros s 1024 rest → s.seq.ready = true →
    s.Unmarked → s.CursorAt L →
    ∃ t, exec i s = .next t ∧ t.seq = ended s.seq ⟨0, 0⟩ 1024 ∧ t.m.faults = s.m.faults ∧
      t.m.hist = s.m.hist ++ List.replicate 1024 (dataRecord b) ∧
      ∀ a, L ≤ a → a < 1024 → t.rx.fb.read a = some b

/-- R183, R22: the block does not check `ready`: a fill before INITIALIZE is sent and ends OK, and the mark
DataBeforeInit is added. That SEQ.idx keeps its number after the end and that the transport's answers are a list are the
model's choices (logs 21 and 2). -/
def Obligations.FillBeforeInitialiseIsMarked : Prop :=
  ∀ i b, (i, b) ∈ [(Instr.clearAll, (0x00 : Byte)), (Instr.fillAll, (0xFF : Byte))] →
    ∀ (s : State) (rest : List Status), IdleWithZeros s 1024 rest → s.seq.ready = false →
    ∃ t, exec i s = .next t ∧ t.seq = ended s.seq ⟨0, 0⟩ 1024 ∧
      t.m.hist = s.m.hist ++ List.replicate 1024 (dataRecord b) ∧
      t.m.faults = { s.m.faults with dataBeforeInit := true }

/-! ## DRAW_GLYPH and DRAW_TEXT (44_glyph_text.md) -/

/-- R150: a supported glyph is stored at the seven linear positions from the cursor on, the cursor ends behind it, and no
other byte changes. -/
def Obligations.DrawGlyphStoresSevenBytes : Prop :=
  ∀ (s : State) (ch : Byte) (inv : Bool) (L : Nat) (rest : List Status), IdleWithZeros s 7 rest →
    s.seq.ready = true → s.Unmarked → 32 ≤ ch.toNat → ch.toNat ≤ 122 → s.CursorAt L → L + 7 ≤ 1024 →
    ∃ t, exec (.drawGlyph ch inv) s = .next t ∧
      t.seq = ended s.seq ⟨0, 0⟩ 7 ∧ t.port = portAfter s.port rest ∧ t.m.faults = s.m.faults ∧
      t.m.hist = s.m.hist ++ (glyphBytes ch inv).map dataRecord ∧
      Stored s.rx.fb t.rx.fb L (glyphBytes ch inv) ∧ t.rx.cfg = s.rx.cfg ∧
      (L + 7 < 1024 → t.CursorAt (L + 7))

/-- R152, R202: an unsupported character ends DRAW_GLYPH before any transaction; the result is UNSUPPORTED_CHARACTER and
nothing else changes. -/
def Obligations.UnsupportedGlyphIssuesNothing : Prop :=
  ∀ (s : State) (ch : Byte) (inv : Bool), s.idle = true → ch.toNat < 32 ∨ 122 < ch.toNat →
    exec (.drawGlyph ch inv) s = .next
      { seq := ended s.seq ⟨2, 0⟩ 0
        rx := s.rx
        port := portAfter s.port s.port.answers
        m := s.m }

/-- R153, R154: DRAW_TEXT sets the cursor once and stores the glyphs of the characters before the first unsupported one
at consecutive linear positions, across a page end too; it ends with UNSUPPORTED_CHARACTER if there is such a character. -/
def Obligations.DrawTextStoresItsGlyphs : Prop :=
  ∀ (s : State) (text : List Byte) (x y : Byte) (inv : Bool) (rest : List Status),
    let drawn := text.takeWhile fun c => 32 ≤ c.toNat && c.toNat ≤ 122
    let bytes := drawn.flatMap fun c => glyphBytes c inv
    let L := 128 * y.toNat + x.toNat
    IdleWithZeros s (3 + 7 * drawn.length) rest → s.seq.ready = true → s.Unmarked →
    x.toNat < 128 → y.toNat < 8 → L + 7 * drawn.length ≤ 1024 →
    ∃ t, exec (.drawText text x y inv) s = .next t ∧
      t.seq = ended s.seq (if drawn = text then ⟨0, 0⟩ else ⟨2, 0⟩) (3 + 7 * drawn.length) ∧
      t.port = portAfter s.port rest ∧ t.m.faults = s.m.faults ∧
      t.m.hist = s.m.hist ++ cursorRecords x.toNat y.toNat ++ bytes.map dataRecord ∧
      Stored s.rx.fb t.rx.fb L bytes ∧ t.rx.cfg = s.rx.cfg ∧
      (L + 7 * drawn.length < 1024 → t.CursorAt (L + 7 * drawn.length))

/-- R132, R153, R154, R215: DRAW_TEXT checks neither the range of its cursor nor whether its text fits the surface: for all
operands the cursor-set of the truncated values and the seven units of each character before the first unsupported one go
out, and exactly an out-of-range cursor adds a mark. The page byte for `8 ≤ y` is the spec's own resolution of C1 (R131,
D10; log 25). -/
def Obligations.DrawTextDoesNotCheckTheRange : Prop :=
  ∀ (s : State) (text : List Byte) (x y : Byte) (inv : Bool) (rest : List Status),
    let drawn := text.takeWhile fun c => 32 ≤ c.toNat && c.toNat ≤ 122
    let bytes := drawn.flatMap fun c => glyphBytes c inv
    IdleWithZeros s (3 + 7 * drawn.length) rest → s.seq.ready = true →
    ∃ t, exec (.drawText text x y inv) s = .next t ∧
      t.seq = ended s.seq (if drawn = text then ⟨0, 0⟩ else ⟨2, 0⟩) (3 + 7 * drawn.length) ∧
      t.port = portAfter s.port rest ∧
      t.m.hist = s.m.hist ++ cursorRecords x.toNat y.toNat ++ bytes.map dataRecord ∧
      t.m.faults = { s.m.faults with
        cursorOutOfRange := s.m.faults.cursorOutOfRange || decide (128 ≤ x.toNat ∨ 8 ≤ y.toNat) }

/-- R205: a bus failure before the first unsupported character is the one that is reported, with its status. That the
operation ends there and issues no later unit is the spec's decision D7 (R114, R207; log 25); the answers it leaves unused
are a list by the model's choice (log 2). -/
def Obligations.BusFailureBeforeUnsupportedCharacter : Prop :=
  ∀ (s : State) (good bad : List Byte) (c x y : Byte) (inv : Bool) (n : Nat) (st : Status) (rest : List Status),
    (∀ d ∈ good, supported d = true) → supported c = false → s.idle = true → st ≠ 0 →
    s.port.answers = List.replicate n 0 ++ st :: rest →
    ∃ t, exec (.drawText (good ++ c :: bad) x y inv) s = .next t ∧
      (n < 3 + 7 * good.length → t.seq.res = ⟨1, st⟩ ∧ t.port.answers = rest) ∧
      (3 + 7 * good.length ≤ n → t.seq.res = ⟨2, 0⟩ ∧
        t.port.answers = List.replicate (n - (3 + 7 * good.length)) 0 ++ st :: rest)

/-- R84: the character words of a DRAW_TEXT may come one at a time after its request word: fed to the waiting block they
do what the whole request does at once; a text without characters is whole with its request word. -/
def Obligations.CharacterWordsMakeTheText : Prop :=
  (∀ (s : State) (w : Word) (text : List Byte), s.idle = true → fieldCode w = 6 → text ≠ [] →
    text.length = (fieldCh w).toNat →
    execAll (text.map .charWord) (s.acceptTextHeader w) =
      exec (.drawText text (BitVec.extractLsb' 0 8 w) (BitVec.extractLsb' 8 8 w) (w.getLsbD 24)) s) ∧
  ∀ (w : Word) (ws : List Word), fieldCode w = 6 → fieldCh w = 0 →
    decodeRequest (w :: ws) =
      .ok (.drawText [] (BitVec.extractLsb' 0 8 w) (BitVec.extractLsb' 8 8 w) (w.getLsbD 24), ws)

/-- R84, R23: a character word that is not the last is taken into the latch and no transaction is issued; the last one
starts the operation; a busy block that waits for none does not take it; on an idle block there is no character word. The
latch that holds the text so far while a count of awaited words goes down, the number SEQ.idx keeps after the end, the
answers as a list, the refusal on an idle block, and a block that takes no character word while a transaction is
outstanding are the model's choices (logs 14, 21, 2, 18 and 16). -/
def Obligations.CharacterWordIsTakenWhereItIsAwaited : Prop :=
  ∀ (s : State) (c : Byte) (op : OpLatch),
    (s.seq.busy = true → s.seq.op = some op → 2 ≤ s.seq.want → s.port.bus = none → exec (.charWord c) s = .next
      { s with seq := { s.seq with op := some { op with text := op.text ++ [c] }, want := s.seq.want - 1 } }) ∧
    (s.seq.busy = true → s.seq.op = some op → s.seq.want = 1 → op.code = 6 → s.seq.idx = 0 → s.port.bus = none →
      ∀ rest, s.port.answers =
        List.replicate (expand { op with text := op.text ++ [c] }).length 0 ++ rest →
      ∃ t, exec (.charWord c) s = .next t ∧
        t.seq = ended s.seq (if (op.text ++ [c]).all supported then ⟨0, 0⟩ else ⟨2, 0⟩)
          (expand { op with text := op.text ++ [c] }).length ∧
        t.m.hist = s.m.hist ++ (expand { op with text := op.text ++ [c] }).map fun p => ⟨p.txn, 0⟩) ∧
    (s.seq.busy = true → s.seq.want = 0 ∨ s.port.bus ≠ none → exec (.charWord c) s = .next s) ∧
    (s.seq.busy = false → exec (.charWord c) s = .refused .characterOutsideText)

/-! ## DRAW_BITMAP (45_bitmap.md) -/

/-- R165, R168, R180: an in-range DRAW_BITMAP whose bytes all have a place (`x ≤ 88`, or a row that wraps within the
surface) puts every byte of every cell at its linear position, changes no other byte, and ends with the cursor behind the
last cell. Which cell is the last rests on raster order, the spec's choice D12 (R167; log 25). -/
def Obligations.DrawBitmapPaintsItsCells : Prop :=
  ∀ (s : State) (x y : Byte) (rest : List Status), IdleWithZeros s 275 rest → s.seq.ready = true →
    s.Unmarked → x.toNat ≤ 95 → y.toNat ≤ 3 → x.toNat ≤ 88 ∨ y.toNat ≤ 2 →
    ∃ t, exec (.drawBitmap x y) s = .next t ∧
      t.seq = ended s.seq ⟨0, 0⟩ 275 ∧ t.port = portAfter s.port rest ∧ t.m.faults = s.m.faults ∧
      t.rx.cfg = s.rx.cfg ∧
      (∀ (col row : Fin 5) (k : Fin 8),
        t.rx.fb.read (128 * (y.toNat + row.val) + (x.toNat + 8 * col.val + k.val)) = some (Config.qr col row k)) ∧
      (∀ a, (∀ (col row : Fin 5) (k : Fin 8), a ≠ 128 * (y.toNat + row.val) + (x.toNat + 8 * col.val + k.val)) →
        t.rx.fb.read a = s.rx.fb.read a) ∧
      (x.toNat ≤ 87 → t.rx.page = BitVec.ofNat 3 (y.toNat + 4) ∧ t.rx.col = BitVec.ofNat 7 (x.toNat + 40)) ∧
      (88 ≤ x.toNat → y.toNat ≤ 2 → t.rx.page = BitVec.ofNat 3 (y.toNat + 5) ∧ t.rx.col = BitVec.ofNat 7 (x.toNat - 88))

/-- R165, R166, R167: the records of a delivered DRAW_BITMAP: 25 cells in raster order, row the outer loop, the cursor-set
of each from the truncated sums, then its eight data units. Raster order and the masked page byte are the spec's choices
D12 and D10 (R167, R95; log 25); that SEQ.idx keeps its number after the end and that the transport's answers are a list
are the model's (logs 21 and 2). -/
def Obligations.DrawBitmapSendsRasterOrder : Prop :=
  ∀ (s : State) (x y : Byte) (rest : List Status), IdleWithZeros s 275 rest →
    ∃ t, exec (.drawBitmap x y) s = .next t ∧ t.seq = ended s.seq ⟨0, 0⟩ 275 ∧
      t.m.hist = s.m.hist ++ (List.finRange 25).flatMap fun n =>
        cursorRecords (x.toNat + 8 * (n.val % 5)) (y.toNat + n.val / 5) ++
          (List.finRange 8).map fun k => dataRecord (Config.qr ⟨n.val % 5, by omega⟩ ⟨n.val / 5, by omega⟩ k)

/-- R168: all 25 positions are in range exactly when `x ≤ 95` and `y ≤ 3`; otherwise CursorOutOfRange is marked. -/
def Obligations.DrawBitmapMarksOutOfRangeCells : Prop :=
  ∀ (s : State) (x y : Byte) (rest : List Status), IdleWithZeros s 275 rest → s.seq.ready = true →
    ∃ t, exec (.drawBitmap x y) s = .next t ∧ t.m.faults = { s.m.faults with
      cursorOutOfRange := s.m.faults.cursorOutOfRange || decide (95 < x.toNat ∨ 3 < y.toNat) }

/-! ## The receiver (46_receiver.md) -/

/-- R175: a delivered wire unit changes the receiver, the marks and the draw counter and nothing else, in every state and
for every operand; no mark is removed. -/
def Obligations.WireUnitsTouchOnlyTheReceiver : Prop :=
  ∀ (s : State) (i : Instr), i.place = .wire .cursor ∨ i.place = .wire .initCfg ∨ i.place = .wire .data →
    ∃ t, exec i s = .next t ∧ t.seq = s.seq ∧ t.port = s.port ∧ t.m.hist = s.m.hist ∧ s.m.faults.le t.m.faults

/-- R176: PAGE_SEL sets the page and nothing else, while nothing is marked. That it leaves the column alone is implied by
the source (R176). -/
def Obligations.PageSelSetsThePage : Prop :=
  ∀ (s : State) (p : BitVec 3), s.Unmarked →
    exec (.pageSel p) s = .next { s with rx := { s.rx with page := p } }

/-- R177: COL_LO replaces the low nibble of the column and nothing else, while nothing is marked. That it keeps the other
bits is the spec's own reading (R177, D22). -/
def Obligations.ColLoSetsTheLowNibble : Prop :=
  ∀ (s : State) (n : BitVec 4), s.Unmarked →
    exec (.colLo n) s = .next
      { s with rx := { s.rx with col := BitVec.ofNat 7 (s.rx.col.toNat / 16 * 16 + n.toNat) } }

/-- R178: while nothing is marked, COL_HI replaces the high bits of the column and nothing else for `n ≤ 7`; a larger `n`
adds the mark CursorOutOfRange and changes no register but the column. That it keeps the low nibble is the spec's own
reading (R178, D22). -/
def Obligations.ColHiSetsTheHighBits : Prop :=
  ∀ (s : State) (n : BitVec 4), s.Unmarked →
    (n.toNat ≤ 7 → exec (.colHi n) s = .next
      { s with rx := { s.rx with col := BitVec.ofNat 7 (16 * n.toNat + s.rx.col.toNat % 16) } }) ∧
    (8 ≤ n.toNat → ∃ t, exec (.colHi n) s = .next t ∧ t.seq = s.seq ∧ t.port = s.port ∧ t.m.hist = s.m.hist ∧
      t.m.faults = { s.m.faults with cursorOutOfRange := true } ∧ t.rx = { s.rx with col := t.rx.col })

/-- R65, R178: while nothing is marked, the three cursor commands, delivered in order, leave the cursor they name whatever
it was before; sent again they change nothing. -/
def Obligations.CursorCommandsNameThePosition : Prop :=
  ∀ (s : State) (p : BitVec 3) (lo hi : BitVec 4), s.Unmarked → hi.toNat ≤ 7 →
    let t := { s with rx := { s.rx with page := p, col := BitVec.ofNat 7 (16 * hi.toNat + lo.toNat) } }
    execAll [.pageSel p, .colLo lo, .colHi hi] s = .next t ∧
    execAll [.pageSel p, .colLo lo, .colHi hi] t = .next t

/-- R179, R180, R181: DATA_WR on a ready, unmarked display stores its byte at the cursor and changes no other byte; the cursor moves
to the next linear position, and after the last position only page and column are open, with no mark. -/
def Obligations.DataUnitStoresAndAdvances : Prop :=
  ∀ (s : State) (d : Byte), s.Unmarked → s.seq.ready = true →
    ∃ t, exec (.dataWr d) s = .next t ∧ t.seq = s.seq ∧ t.port = s.port ∧
      t.m.hist = s.m.hist ∧ t.m.faults = s.m.faults ∧ t.rx.cfg = s.rx.cfg ∧
      (∀ a, t.rx.fb.read a = if a = lin s.rx.page s.rx.col then some d else s.rx.fb.read a) ∧
      (s.rx.col.toNat < 127 → t.rx.page = s.rx.page ∧ t.rx.col.toNat = s.rx.col.toNat + 1) ∧
      (s.rx.col.toNat = 127 → s.rx.page.toNat < 7 → t.rx.page.toNat = s.rx.page.toNat + 1 ∧ t.rx.col = 0)

/-- R51, R60, R179: bit `i` of a delivered data byte becomes the pixel of row `8*PAGE + i` at the cursor's column; every
other pixel of the surface is as it was. -/
def Obligations.DataUnitDrawsEightPixels : Prop :=
  ∀ (s t : State) (d : Byte), s.Unmarked → s.seq.ready = true → exec (.dataWr d) s = .next t →
    ∀ (px : BitVec 7) (py : BitVec 6), t.pixel px py =
      if px = s.rx.col ∧ py.toNat / 8 = s.rx.page.toNat then some (d.getLsbD (py.toNat % 8)) else s.pixel px py

/-- R183: every data unit delivered before a completed INITIALIZE, the first and each later one, adds the mark
DataBeforeInit, and the only byte it can change is the one at the unspecified position the model draws (log 8). That the
receiver is known no better after one of the other two marks is log 9. -/
def Obligations.DataBeforeInitialiseIsMarked : Prop :=
  ∀ (s : State) (d : Byte), s.m.faults.cursorOutOfRange = false → s.m.faults.busFailure = false → s.seq.ready = false →
    ∃ t, exec (.dataWr d) s = .next t ∧ t.seq = s.seq ∧ t.port = s.port ∧ t.m.hist = s.m.hist ∧
      t.m.faults = { s.m.faults with dataBeforeInit := true } ∧ t.rx.cfg = s.rx.cfg ∧
      ∀ a, a ≠ lin (Config.freePosPage s.m.draws) (Config.freePosCol s.m.draws) → t.rx.fb.read a = s.rx.fb.read a

/-- R183, R176 to R178: before a completed INITIALIZE the cursor commands are executed as usual, also after data units that
were sent too early. That each keeps the rest of the cursor is implied by the source or the spec's own reading (R176, D22).
-/
def Obligations.CursorUnitsBeforeInitialise : Prop :=
  ∀ s : State, s.m.faults.cursorOutOfRange = false → s.m.faults.busFailure = false → s.seq.ready = false →
    (∀ p : BitVec 3, exec (.pageSel p) s = .next { s with rx := { s.rx with page := p } }) ∧
    (∀ n : BitVec 4, exec (.colLo n) s = .next
      { s with rx := { s.rx with col := BitVec.ofNat 7 (s.rx.col.toNat / 16 * 16 + n.toNat) } }) ∧
    (∀ n : BitVec 4, n.toNat ≤ 7 → exec (.colHi n) s = .next
      { s with rx := { s.rx with col := BitVec.ofNat 7 (16 * n.toNat + s.rx.col.toNat % 16) } })

/-- R182: a configuration unit leaves every byte of the surface as it was and adds no mark. -/
def Obligations.ConfigurationKeepsTheSurface : Prop :=
  ∀ (s : State) (b : Byte), s.Unmarked →
    ∃ t, exec (.cfg b) s = .next t ∧ t.seq = s.seq ∧ t.port = s.port ∧ t.m.hist = s.m.hist ∧
      t.m.faults = s.m.faults ∧ t.rx.fb = s.rx.fb

/-- R187, the stream lemma: data units delivered one after another from linear position `L` store their bytes from `L` on,
leave every other byte, and leave the cursor behind the last one. -/
def Obligations.StreamOfDataUnits : Prop :=
  ∀ (s : State) (L : Nat) (ds : List Byte), s.seq.ready = true → s.Unmarked → s.CursorAt L →
    L + ds.length ≤ 1024 →
    ∃ t, execAll (ds.map .dataWr) s = .next t ∧ t.seq = s.seq ∧ t.port = s.port ∧
      t.m.hist = s.m.hist ∧ t.m.faults = s.m.faults ∧
      Stored s.rx.fb t.rx.fb L ds ∧ (L + ds.length < 1024 → t.CursorAt (L + ds.length))

/-! ## The channel (40_channel.md) -/

/-- R110, R113, R185: CMD performs one write of `[0x00, b]` to ADDR8 and records it with its status; it writes no
register of the sequencer. Delivered, it is the wire unit it sends; failed, it adds the mark BusFailure. That a failed
write leaves every byte but the one at the cursor is the model's reading (log 10), as R184 makes no statement of it; CMD
executed by itself is the model's too (log 16). A delivered command byte the receiver has no rule for is refused. -/
def Obligations.CmdPerformsOneWrite : Prop :=
  ∀ (s : State) (b : Byte) (st : Status) (as : List Status), s.port.bus = none → s.port.answers = st :: as →
    ((st ≠ 0 ∨ (decodeUnit (cmdOrigin s) 0x00 b).isOk = true) →
      ∃ t, exec (.cmd b) s = .next t ∧ t.seq = s.seq ∧ t.port = { s.port with answers := as } ∧
        t.m.hist = s.m.hist ++ [⟨⟨.write, Config.addr8, some (0x00, b), cmdOrigin s⟩, st⟩] ∧
        (∀ i, st = 0 → decodeUnit (cmdOrigin s) 0x00 b = .ok i →
          exec i { s with
            port := { s.port with answers := as }
            m := { s.m with hist := s.m.hist ++ [⟨⟨.write, Config.addr8, some (0x00, b), cmdOrigin s⟩, st⟩] } }
          = .next t) ∧
        (st ≠ 0 → t.m.faults = { s.m.faults with busFailure := true }) ∧
        (st ≠ 0 → s.Unmarked →
          ∀ a, a ≠ lin s.rx.page s.rx.col → t.rx.fb.read a = s.rx.fb.read a)) ∧
    (st = 0 → (decodeUnit (cmdOrigin s) 0x00 b).isOk = false → exec (.cmd b) s = .refused .unitWithoutMeaning)

/-- R111, R113, R179, R183: DAT performs one write of `[0x40, d]` to ADDR8 and records it, in every state; delivered to a
ready, unmarked display it stores the byte at the cursor; before INITIALIZE it adds DataBeforeInit when delivered. A
failed one adds BusFailure and no other mark. That a failed write leaves every byte but the one at the cursor (before
INITIALIZE, also one at the position the model draws) is the model's reading (logs 10, 23, 8), as R184 makes no statement
of it; DAT executed by itself is the model's too (log 16). -/
def Obligations.DatPerformsOneWrite : Prop :=
  ∀ (s : State) (d : Byte) (st : Status) (as : List Status), s.port.bus = none → s.port.answers = st :: as →
    ∃ t, exec (.dat d) s = .next t ∧ t.seq = s.seq ∧ t.port = { s.port with answers := as } ∧
      t.m.hist = s.m.hist ++ [⟨⟨.write, Config.addr8, some (0x40, d), .data⟩, st⟩] ∧
      t.m.faults = { s.m.faults with
        busFailure := s.m.faults.busFailure || decide (st ≠ 0)
        dataBeforeInit := s.m.faults.dataBeforeInit || (decide (st = 0) && !s.seq.ready) } ∧
      (s.Unmarked → s.seq.ready = true →
        (∀ a, a ≠ lin s.rx.page s.rx.col → t.rx.fb.read a = s.rx.fb.read a) ∧
        (st = 0 → t.rx.fb.at s.rx.page s.rx.col = some d)) ∧
      (s.m.faults.cursorOutOfRange = false → s.m.faults.busFailure = false → s.seq.ready = false →
        ∀ a, a ≠ lin s.rx.page s.rx.col →
        a ≠ lin (Config.freePosPage s.m.draws) (Config.freePosCol s.m.draws) → t.rx.fb.read a = s.rx.fb.read a)

/-- R112, R186: PRB performs one probe of ADDR8 and records it; nothing in the receiver changes, whatever the status. -/
def Obligations.PrbChangesNothingInTheReceiver : Prop :=
  ∀ (s : State) (st : Status) (as : List Status), s.port.bus = none → s.port.answers = st :: as →
    exec .prb s = .next
      { s with
        port := { s.port with answers := as }
        m := { s.m with hist := s.m.hist ++ [⟨⟨.probe, Config.addr8, none, .probe⟩, st⟩] } }

/-- R36, R113: a micro-operation the transport does not answer stays outstanding on the port, and one presented while
another is outstanding is not taken: there is one transaction at a time. Micro-operations executed by themselves, and
that they then do nothing, are the model's reading (log 16). -/
def Obligations.OneTransactionAtATime : Prop :=
  ∀ (s : State) (i : Instr) (t : Txn),
    (i, t) ∈ [(Instr.prb, Txn.probe)] ∨ (∃ b, i = .cmd b ∧ t = .command b (cmdOrigin s)) ∨ (∃ d, i = .dat d ∧ t = .data d) →
    (s.port.bus = none → s.port.answers = [] → exec i s = .next { s with port := { s.port with bus := some t } }) ∧
    (s.port.bus ≠ none → exec i s = .next s)

/-! ## Invariants and whole-machine rules -/

/-- R51, R73: every step keeps the canonical form of the surface memory. -/
def Obligations.StepKeepsMemoryCanonical : Prop :=
  ∀ s t : State, s.rx.fb.wf → step s = .next t → t.rx.fb.wf

/-- R25: every step keeps `kind = 1` if and only if `status ≠ 0`, and `kind` is never 3. -/
def Obligations.StepKeepsTheResultRule : Prop :=
  ∀ s t : State, s.seq.res.wf = true → step s = .next t → t.seq.res.wf = true

/-- R22, R31, R34: no step clears `ready`, removes a mark or changes a record of the history: it only adds. -/
def Obligations.StepOnlyAdds : Prop :=
  ∀ s t : State, step s = .next t →
    (s.seq.ready = true → t.seq.ready = true) ∧ s.m.faults.le t.m.faults ∧ ∃ new, t.m.hist = s.m.hist ++ new

/-- R21 to R24, R36, R84: every step keeps the sequencer in one of its situations: idle, waiting for characters, or with
`expand(SEQ.op)[SEQ.idx]` outstanding. -/
def Obligations.StepKeepsTheSequencerConsistent : Prop :=
  ∀ s t : State, s.consistent = true → step s = .next t → t.consistent = true

/-- R8, R57, R98: the block only ever issues writes of two-byte units the receiver has a rule for, and probes, all to
ADDR8. -/
def Obligations.BlockIssuesOnlyLegalTransactions : Prop :=
  ∀ s t : State, OnlyLegal s → step s = .next t → OnlyLegal t

/-- R83, R185, R200: from a consistent state a step always has a next state: no request, no character, no status and no
receiver state stops the machine. That a block whose transport is silent, or that waits for the host, has a next state
at all is the model's choice (log 27), where U9 calls it stuck. -/
def Obligations.ConsistentMachineNeverStops : Prop :=
  ∀ s : State, s.consistent = true → ∃ t, step s = .next t

/-- R22, R123: only an INITIALIZE that ends OK makes the block Ready. -/
def Obligations.OnlyInitialiseMakesReady : Prop :=
  ∀ s t : State, s.consistent = true → step s = .next t → s.seq.ready = false → t.seq.ready = true →
    t.seq.res = ⟨0, 0⟩ ∧ t.seq.busy = false ∧
    ((∃ op, s.seq.op = some op ∧ op.code = 0) ∨ ∃ rest, decodeRequest s.port.req = .ok (.initialise, rest))

/-- R26, R53, R71: the block cannot depend on the surface, the cursor or anything else of the receiver: two states with
the same sequencer, ports and history take steps to states with the same sequencer, ports and history. -/
def Obligations.SequencerIgnoresTheReceiver : Prop :=
  ∀ s s' t : State, SameSequencer s s' → step s = .next t → ∃ t', step s' = .next t' ∧ SameSequencer t t'

/-- R25, R35: the invariants hold right after reset. -/
def Obligations.ResetMeetsTheInvariants : Prop :=
  State.reset.rx.fb.wf ∧ State.reset.seq.res.wf = true ∧ State.reset.consistent = true ∧ OnlyLegal State.reset ∧
  State.reset.Unmarked
end

