-- ==== Sys2Proof/Laws/Memory.lean ====
section
/-! SUPPORT. The surface memory: reading after writing, and the canonical form, which every operation keeps. -/

namespace Sys2Proof.Machine

theorem Memory.read_write (m : Memory) (a b : Nat) (v : Byte) :
    (m.write a v).read b = if a = b then some v else m.read b := by
  induction m with
  | nil => simp [Memory.write, Memory.read]
  | cons c m ih =>
    simp only [Memory.write]
    split
    · simp [Memory.read]
    · split
      · subst a
        by_cases h : c.1 = b <;> simp [Memory.read, h]
      · simp only [Memory.read, ih]
        by_cases h : a = b
        · have : ¬ c.1 = b := by omega
          simp [h, this]
        · simp [h]

/-- A cell of a written memory is the written one or an old one. -/
theorem Memory.mem_write {m : Memory} {a : Nat} {v : Byte} {c : Host.Cell} (h : c ∈ m.write a v) :
    c = (a, v) ∨ c ∈ m := by
  induction m with
  | nil => simpa [Memory.write] using h
  | cons d m ih =>
    simp only [Memory.write] at h
    split at h
    · simpa using h
    · split at h
      · rcases List.mem_cons.1 h with h | h
        · exact .inl h
        · exact .inr (List.mem_cons_of_mem _ h)
      · rcases List.mem_cons.1 h with h | h
        · exact .inr (h ▸ List.mem_cons_self)
        · exact (ih h).imp id (List.mem_cons_of_mem _)

theorem Memory.write_wf {m : Memory} {a : Nat} (v : Byte) (h : m.wf) (ha : a < 1024) : (m.write a v).wf := by
  obtain ⟨hp, hb⟩ := h
  refine ⟨?_, fun c hc => ?_⟩
  · induction m with
    | nil => simp [Memory.write]
    | cons d m ih =>
      obtain ⟨hd, hm⟩ := List.pairwise_cons.1 hp
      simp only [Memory.write]
      split
      · rename_i hlt
        refine List.pairwise_cons.2 ⟨fun c hc => ?_, hp⟩
        rcases List.mem_cons.1 hc with rfl | hc
        · exact hlt
        · exact Nat.lt_trans hlt (hd c hc)
      · split
        · rename_i heq
          exact List.pairwise_cons.2 ⟨fun c hc => heq ▸ hd c hc, hm⟩
        · refine List.pairwise_cons.2 ⟨fun c hc => ?_, ih hm fun c hc => hb c (List.mem_cons_of_mem _ hc)⟩
          rcases Memory.mem_write hc with rfl | hc
          · simp only; omega
          · exact hd c hc
  · rcases Memory.mem_write hc with rfl | hc
    · exact ha
    · exact hb c hc

theorem lin_lt (p : BitVec 3) (c : BitVec 7) : lin p c < 1024 := by
  have := p.isLt
  have := c.isLt
  unfold lin
  omega

theorem lin_inj {p q : BitVec 3} {c d : BitVec 7} : lin p c = lin q d ↔ p = q ∧ c = d := by
  have h1 := p.isLt
  have h2 := c.isLt
  have h3 := q.isLt
  have h4 := d.isLt
  rw [← BitVec.toNat_inj, ← BitVec.toNat_inj]
  unfold lin
  omega

theorem Memory.put_wf {m : Memory} (p : BitVec 3) (c : BitVec 7) (v : Byte) (h : m.wf) : (m.put p c v).wf :=
  Memory.write_wf v h (lin_lt p c)

theorem Memory.at_put (m : Memory) (p q : BitVec 3) (c d : BitVec 7) (v : Byte) :
    (m.put p c v).at q d = if p = q ∧ c = d then some v else m.at q d := by
  simp [Memory.at, Memory.put, Memory.read_write, lin_inj]

theorem Memory.ofCells_wf (cells : List ((BitVec 3 × BitVec 7) × Byte)) : (Memory.ofCells cells).wf := by
  have h : ∀ (l : List ((BitVec 3 × BitVec 7) × Byte)) (m : Memory), m.wf →
      Memory.wf (l.foldl (fun m c => Memory.put m c.1.1 c.1.2 c.2) m) := by
    intro l
    induction l with
    | nil => exact fun _ h => h
    | cons c l ih => exact fun m h => ih _ (Memory.put_wf _ _ _ h)
  exact h cells [] ⟨List.Pairwise.nil, by simp⟩

/-- The surface right after reset lists nothing (R35). -/
theorem State.reset_fb : State.reset.rx.fb = [] := rfl

theorem Memory.nil_wf : Memory.wf [] := ⟨List.Pairwise.nil, fun _ h => absurd h List.not_mem_nil⟩

end Sys2Proof.Machine
end

