-- ==== Sys2Proof/Laws/State.lean ====
section
/-! SUPPORT. What each named update of the state changes: one lemma per field, true by unfolding once. -/

namespace Sys2Proof.Machine

section Updates
variable (s : State)

@[simp] theorem State.setRx_rx (rx : Rx) : (s.setRx rx).rx = rx := rfl
@[simp] theorem State.setRx_seq (rx : Rx) : (s.setRx rx).seq = s.seq := rfl
@[simp] theorem State.setRx_port (rx : Rx) : (s.setRx rx).port = s.port := rfl
@[simp] theorem State.setRx_m (rx : Rx) : (s.setRx rx).m = s.m := rfl

@[simp] theorem State.setFaults_rx (f : Marks) : (s.setFaults f).rx = s.rx := rfl
@[simp] theorem State.setFaults_seq (f : Marks) : (s.setFaults f).seq = s.seq := rfl
@[simp] theorem State.setFaults_port (f : Marks) : (s.setFaults f).port = s.port := rfl
@[simp] theorem State.setFaults_faults (f : Marks) : (s.setFaults f).m.faults = f := rfl
@[simp] theorem State.setFaults_hist (f : Marks) : (s.setFaults f).m.hist = s.m.hist := rfl
@[simp] theorem State.setFaults_draws (f : Marks) : (s.setFaults f).m.draws = s.m.draws := rfl

@[simp] theorem State.drew_rx : s.drew.rx = s.rx := rfl
@[simp] theorem State.drew_seq : s.drew.seq = s.seq := rfl
@[simp] theorem State.drew_port : s.drew.port = s.port := rfl
@[simp] theorem State.drew_faults : s.drew.m.faults = s.m.faults := rfl
@[simp] theorem State.drew_hist : s.drew.m.hist = s.m.hist := rfl
@[simp] theorem State.drew_draws : s.drew.m.draws = s.m.draws + 1 := rfl

@[simp] theorem State.record_rx (t : Txn) (st : Status) : (s.record t st).rx = s.rx := rfl
@[simp] theorem State.record_seq (t : Txn) (st : Status) : (s.record t st).seq = s.seq := rfl
@[simp] theorem State.record_port (t : Txn) (st : Status) : (s.record t st).port = s.port := rfl
@[simp] theorem State.record_faults (t : Txn) (st : Status) : (s.record t st).m.faults = s.m.faults := rfl
@[simp] theorem State.record_hist (t : Txn) (st : Status) : (s.record t st).m.hist = s.m.hist ++ [⟨t, st⟩] := rfl
@[simp] theorem State.record_draws (t : Txn) (st : Status) : (s.record t st).m.draws = s.m.draws := rfl

@[simp] theorem State.setAnswers_rx (as : List Status) : (s.setAnswers as).rx = s.rx := rfl
@[simp] theorem State.setAnswers_seq (as : List Status) : (s.setAnswers as).seq = s.seq := rfl
@[simp] theorem State.setAnswers_m (as : List Status) : (s.setAnswers as).m = s.m := rfl
@[simp] theorem State.setAnswers_bus (as : List Status) : (s.setAnswers as).port.bus = s.port.bus := rfl
@[simp] theorem State.setAnswers_req (as : List Status) : (s.setAnswers as).port.req = s.port.req := rfl
@[simp] theorem State.setAnswers_done (as : List Status) : (s.setAnswers as).port.done = s.port.done := rfl
@[simp] theorem State.setAnswers_answers (as : List Status) : (s.setAnswers as).port.answers = as := rfl
@[simp] theorem State.setAnswers_self : s.setAnswers s.port.answers = s := rfl

@[simp] theorem State.setReq_rx (ws : List Word) : (s.setReq ws).rx = s.rx := rfl
@[simp] theorem State.setReq_seq (ws : List Word) : (s.setReq ws).seq = s.seq := rfl
@[simp] theorem State.setReq_m (ws : List Word) : (s.setReq ws).m = s.m := rfl
@[simp] theorem State.setReq_bus (ws : List Word) : (s.setReq ws).port.bus = s.port.bus := rfl
@[simp] theorem State.setReq_req (ws : List Word) : (s.setReq ws).port.req = ws := rfl
@[simp] theorem State.setReq_answers (ws : List Word) : (s.setReq ws).port.answers = s.port.answers := rfl
@[simp] theorem State.setReq_done (ws : List Word) : (s.setReq ws).port.done = s.port.done := rfl

@[simp] theorem State.countUnit_rx : s.countUnit.rx = s.rx := rfl
@[simp] theorem State.countUnit_port : s.countUnit.port = s.port := rfl
@[simp] theorem State.countUnit_m : s.countUnit.m = s.m := rfl
@[simp] theorem State.countUnit_ready : s.countUnit.seq.ready = s.seq.ready := rfl
@[simp] theorem State.countUnit_busy : s.countUnit.seq.busy = s.seq.busy := rfl
@[simp] theorem State.countUnit_op : s.countUnit.seq.op = s.seq.op := rfl
@[simp] theorem State.countUnit_idx : s.countUnit.seq.idx = s.seq.idx + 1 := rfl
@[simp] theorem State.countUnit_res : s.countUnit.seq.res = s.seq.res := rfl
@[simp] theorem State.countUnit_want : s.countUnit.seq.want = s.seq.want := rfl

@[simp] theorem State.accept_rx (op : OpLatch) (n : Nat) : (s.accept op n).rx = s.rx := rfl
@[simp] theorem State.accept_m (op : OpLatch) (n : Nat) : (s.accept op n).m = s.m := rfl
@[simp] theorem State.accept_ready (op : OpLatch) (n : Nat) : (s.accept op n).seq.ready = s.seq.ready := rfl
@[simp] theorem State.accept_busy (op : OpLatch) (n : Nat) : (s.accept op n).seq.busy = true := rfl
@[simp] theorem State.accept_op (op : OpLatch) (n : Nat) : (s.accept op n).seq.op = some op := rfl
@[simp] theorem State.accept_idx (op : OpLatch) (n : Nat) : (s.accept op n).seq.idx = 0 := rfl
@[simp] theorem State.accept_res (op : OpLatch) (n : Nat) : (s.accept op n).seq.res = s.seq.res := rfl
@[simp] theorem State.accept_want (op : OpLatch) (n : Nat) : (s.accept op n).seq.want = n := rfl
@[simp] theorem State.accept_bus (op : OpLatch) (n : Nat) : (s.accept op n).port.bus = s.port.bus := rfl
@[simp] theorem State.accept_req (op : OpLatch) (n : Nat) : (s.accept op n).port.req = s.port.req := rfl
@[simp] theorem State.accept_answers (op : OpLatch) (n : Nat) : (s.accept op n).port.answers = s.port.answers := rfl
@[simp] theorem State.accept_done (op : OpLatch) (n : Nat) : (s.accept op n).port.done = false := rfl

@[simp] theorem State.endWith_rx (r : Result) : (s.endWith r).rx = s.rx := rfl
@[simp] theorem State.endWith_m (r : Result) : (s.endWith r).m = s.m := rfl
@[simp] theorem State.endWith_ready (r : Result) : (s.endWith r).seq.ready = s.seq.ready := rfl
@[simp] theorem State.endWith_busy (r : Result) : (s.endWith r).seq.busy = false := rfl
@[simp] theorem State.endWith_op (r : Result) : (s.endWith r).seq.op = none := rfl
@[simp] theorem State.endWith_idx (r : Result) : (s.endWith r).seq.idx = s.seq.idx := rfl
@[simp] theorem State.endWith_res (r : Result) : (s.endWith r).seq.res = r := rfl
@[simp] theorem State.endWith_want (r : Result) : (s.endWith r).seq.want = 0 := rfl
@[simp] theorem State.endWith_bus (r : Result) : (s.endWith r).port.bus = s.port.bus := rfl
@[simp] theorem State.endWith_req (r : Result) : (s.endWith r).port.req = s.port.req := rfl
@[simp] theorem State.endWith_answers (r : Result) : (s.endWith r).port.answers = s.port.answers := rfl
@[simp] theorem State.endWith_done (r : Result) : (s.endWith r).port.done = true := rfl

/-- `raise` is the end of an operation with a result and nothing else (R207). -/
theorem State.raise_eq (r : Result) : s.raise r = s.endWith r := rfl

/-- `finish` is the end with OK, and for INITIALIZE the lifecycle transition (R123, R200). -/
theorem State.finish_true : s.finish true = { s with seq := { s.seq with ready := true } }.endWith .ok := rfl
theorem State.finish_false : s.finish false = s.endWith .ok := rfl

end Updates

section Present
variable (s : State) (p : Planned)

@[simp] theorem State.present_rx : (s.present p).rx = s.rx := by unfold State.present; split <;> rfl
@[simp] theorem State.present_seq : (s.present p).seq = s.seq := by unfold State.present; split <;> rfl
@[simp] theorem State.present_bus : (s.present p).port.bus = some p.txn := by unfold State.present; split <;> rfl
@[simp] theorem State.present_req : (s.present p).port.req = s.port.req := by unfold State.present; split <;> rfl
@[simp] theorem State.present_answers : (s.present p).port.answers = s.port.answers := by
  unfold State.present; split <;> rfl
@[simp] theorem State.present_done : (s.present p).port.done = s.port.done := by unfold State.present; split <;> rfl
@[simp] theorem State.present_hist : (s.present p).m.hist = s.m.hist := by unfold State.present; split <;> rfl
@[simp] theorem State.present_draws : (s.present p).m.draws = s.m.draws := by unfold State.present; split <;> rfl
theorem State.present_faults : (s.present p).m.faults =
    if p.outOfRange then s.m.faults.addCursorOutOfRange else s.m.faults := by
  unfold State.present; split <;> rfl

end Present

end Sys2Proof.Machine
end

