-- ==== Sys2Proof/Laws/Receiver.lean ====
section
/-! SUPPORT. What the receiver's reactions can do: they touch the receiver, the marks and the draw counter and nothing
else (`RxOnly`), and what each does when nothing is marked. -/

namespace Sys2Proof.Machine

theorem Marks.le_refl (f : Marks) : f.le f := ⟨id, id, id⟩

theorem Marks.le_trans {f g h : Marks} (a : f.le g) (b : g.le h) : f.le h :=
  ⟨b.1 ∘ a.1, b.2.1 ∘ a.2.1, b.2.2 ∘ a.2.2⟩

theorem Marks.le_addCursorOutOfRange (f : Marks) : f.le f.addCursorOutOfRange := ⟨fun _ => rfl, id, id⟩
theorem Marks.le_addBusFailure (f : Marks) : f.le f.addBusFailure := ⟨id, fun _ => rfl, id⟩
theorem Marks.le_addDataBeforeInit (f : Marks) : f.le f.addDataBeforeInit := ⟨id, id, fun _ => rfl⟩

/-- From `s` to `t` only the receiver, the marks and the draw counter changed; no mark was removed, and the surface kept
its canonical form. -/
structure RxOnly (s t : State) : Prop where
  seq : t.seq = s.seq
  port : t.port = s.port
  hist : t.m.hist = s.m.hist
  faults : s.m.faults.le t.m.faults
  wf : s.rx.fb.wf → t.rx.fb.wf

namespace RxOnly

theorem refl (s : State) : RxOnly s s := ⟨rfl, rfl, rfl, Marks.le_refl _, id⟩

theorem trans {s t u : State} (a : RxOnly s t) (b : RxOnly t u) : RxOnly s u :=
  ⟨b.seq.trans a.seq, b.port.trans a.port, b.hist.trans a.hist, Marks.le_trans a.faults b.faults, b.wf ∘ a.wf⟩

theorem setRx (s : State) (rx : Rx) (h : s.rx.fb.wf → rx.fb.wf) : RxOnly s (s.setRx rx) :=
  ⟨rfl, rfl, rfl, Marks.le_refl _, h⟩

theorem setFaults (s : State) {f : Marks} (h : s.m.faults.le f) : RxOnly s (s.setFaults f) := ⟨rfl, rfl, rfl, h, id⟩

theorem drew (s : State) : RxOnly s s.drew := ⟨rfl, rfl, rfl, Marks.le_refl _, id⟩

theorem freeCursor (s : State) : RxOnly s s.freeCursor := trans (by exact setRx s _ id) (drew _)
theorem freeColumn (s : State) : RxOnly s s.freeColumn := trans (by exact setRx s _ id) (drew _)
theorem forgetRx (s : State) : RxOnly s s.forgetRx := (setRx s _ fun _ => Memory.ofCells_wf _).trans (drew _)

theorem reacting {s : State} {rule : State → State} (h : RxOnly s (rule s)) : RxOnly s (s.reacting rule) := by
  unfold State.reacting
  split
  · exact forgetRx s
  · exact h

theorem storeAtCursor (s : State) (d : Byte) : RxOnly s (s.storeAtCursor d) := setRx s _ (Memory.put_wf _ _ _)

theorem advanceCursor (s : State) : RxOnly s s.advanceCursor := by
  unfold State.advanceCursor
  split
  · exact setRx s _ id
  · split
    · exact setRx s _ id
    · exact freeCursor s

theorem storeSomewhere (s : State) : RxOnly s s.storeSomewhere := (setRx s _ (Memory.put_wf _ _ _)).trans (drew _)

theorem disturbRx (s : State) (o : Origin) : RxOnly s (s.disturbRx o) := by
  refine (setRx s _ fun h => ?_).trans (drew _)
  simp only
  split
  · exact Memory.put_wf _ _ _ (Memory.put_wf _ _ _ h)
  · exact Memory.put_wf _ _ _ h

theorem rxPageSel (p : BitVec 3) (s : State) : RxOnly s (rxPageSel p s) := reacting (setRx s _ id)
theorem rxColLo (n : BitVec 4) (s : State) : RxOnly s (rxColLo n s) := reacting (setRx s _ id)

theorem rxColHi (n : BitVec 4) (s : State) : RxOnly s (rxColHi n s) := by
  unfold Machine.rxColHi
  split
  · exact reacting (setRx s _ id)
  · exact (reacting (freeColumn s)).trans (setFaults _ (Marks.le_addCursorOutOfRange _))

theorem rxDataWr (d : Byte) (s : State) : RxOnly s (rxDataWr d s) := by
  unfold Machine.rxDataWr
  split
  · exact reacting ((storeAtCursor s d).trans (advanceCursor _))
  · exact (reacting (storeSomewhere s)).trans (setFaults _ (Marks.le_addDataBeforeInit _))

theorem rxCfg (b : Byte) (s : State) : RxOnly s (rxCfg b s) := reacting (trans (by exact setRx s _ id) (freeCursor _))

theorem receive (o : Origin) (c p : Byte) (s : State) : RxOnly s (receive o c p s) := by
  unfold Machine.receive
  split
  · exact rxPageSel _ s
  · exact rxColLo _ s
  · exact rxColHi _ s
  · exact rxDataWr _ s
  · exact rxCfg _ s
  · exact refl s
  · exact refl s

theorem rxFailedWrite (o : Origin) (s : State) : RxOnly s (rxFailedWrite o s) :=
  (reacting (disturbRx s o)).trans (setFaults _ (Marks.le_addBusFailure _))

end RxOnly

/-- Whether the receiver is lost depends on the marks and on `ready` alone. -/
theorem State.rxLost_congr {s t : State} (hf : t.m.faults = s.m.faults) (hr : t.seq.ready = s.seq.ready) :
    t.rxLost = s.rxLost := by
  simp only [State.rxLost, hf, hr]

/-- What it takes for the receiver to be known: no mark but DataBeforeInit, and that one only before INITIALIZE (R183). -/
theorem State.rxLost_eq_false_iff {s : State} : s.rxLost = false ↔
    s.m.faults.cursorOutOfRange = false ∧ s.m.faults.busFailure = false ∧
      (s.m.faults.dataBeforeInit = true → s.seq.ready = false) := by
  simp [State.rxLost, and_assoc]

theorem State.Unmarked.rxLost {s : State} (h : s.Unmarked) : s.rxLost = false := by
  simp [State.rxLost, show s.m.faults = Marks.none from h, Marks.none]

/-- A rule runs as it stands while the receiver is known (log 9). -/
theorem State.reacting_known {s : State} (h : s.rxLost = false) (rule : State → State) :
    s.reacting rule = rule s := by
  simp [State.reacting, h]

/-- The cursor after a store (R180): the next linear position. -/
theorem lin_advanceCursor {s : State} (h : lin s.rx.page s.rx.col < 1023) :
    lin s.advanceCursor.rx.page s.advanceCursor.rx.col = lin s.rx.page s.rx.col + 1 := by
  have hp := s.rx.page.isLt
  have hc := s.rx.col.isLt
  unfold State.advanceCursor lin at *
  split
  · simp only [State.setRx_rx, BitVec.toNat_add]
    simp
    omega
  · split
    · simp only [State.setRx_rx, BitVec.toNat_add]
      simp
      omega
    · omega

end Sys2Proof.Machine
end

