-- ==== Sys2Proof/Laws/Engine.lean ====
section
/-! SUPPORT. What the transaction engine can do: the frame of each of its operations, and the closed form of a run of
an operation when the transport answers 0, fails, or falls silent. -/

namespace Sys2Proof.Machine

/-! ## Frames -/

section Settle
variable (s : State) (t : Txn) (st : Status)

/-- Settling a transaction frees the port, adds its record, and lets the receiver react (R113). -/
theorem State.settle_frame : RxOnly ({ s with port := { s.port with bus := none } }.record t st) (s.settle t st) := by
  unfold State.settle
  split
  · split
    · exact RxOnly.receive _ _ _ _
    · exact RxOnly.rxFailedWrite _ _
  · exact RxOnly.refl _
  · exact RxOnly.refl _

@[simp] theorem State.settle_seq : (s.settle t st).seq = s.seq := (s.settle_frame t st).seq
@[simp] theorem State.settle_port : (s.settle t st).port = { s.port with bus := none } := (s.settle_frame t st).port
@[simp] theorem State.settle_hist : (s.settle t st).m.hist = s.m.hist ++ [⟨t, st⟩] := (s.settle_frame t st).hist
theorem State.settle_faults : s.m.faults.le (s.settle t st).m.faults := (s.settle_frame t st).faults
theorem State.settle_wf : s.rx.fb.wf → (s.settle t st).rx.fb.wf := (s.settle_frame t st).wf

/-- A probe changes nothing in the receiver, whatever its status (R186). -/
theorem State.settle_probe (h : t.kind = .probe) :
    s.settle t st = { s with port := { s.port with bus := none } }.record t st := by
  unfold State.settle
  rw [h]

/-- A delivered write: the receiver's reaction (R175). -/
theorem State.settle_ofUnit (c p : Byte) (o : Origin) :
    s.settle (.ofUnit c p o) 0 =
      receive o c p ({ s with port := { s.port with bus := none } }.record (.ofUnit c p o) 0) := rfl

end Settle

section Complete
variable (s : State) (op : OpLatch)

@[simp] theorem State.finish_rx (b : Bool) : (s.finish b).rx = s.rx := by cases b <;> rfl
@[simp] theorem State.finish_m (b : Bool) : (s.finish b).m = s.m := by cases b <;> rfl
@[simp] theorem State.finish_port (b : Bool) : (s.finish b).port = { s.port with done := true } := by cases b <;> rfl
theorem State.finish_seq (b : Bool) : (s.finish b).seq =
    { s.seq with ready := s.seq.ready || b, busy := false, op := none, res := .ok, want := 0 } := by
  cases b <;> simp [State.finish, State.endWith]

/-- The result an operation ends with when its list is done (R152, R153, R200). -/
def resultOf (op : OpLatch) : Result := if meetsUnsupported op then .unsupported else .ok

@[simp] theorem State.complete_rx : (s.complete op).rx = s.rx := by unfold State.complete; split <;> simp [State.raise]
@[simp] theorem State.complete_m : (s.complete op).m = s.m := by unfold State.complete; split <;> simp [State.raise]
@[simp] theorem State.complete_port : (s.complete op).port = { s.port with done := true } := by
  unfold State.complete; split <;> simp [State.raise, State.endWith]
theorem State.complete_seq : (s.complete op).seq =
    { s.seq with
      ready := s.seq.ready || (op.code = 0 : Bool), busy := false, op := none, res := resultOf op, want := 0 } := by
  unfold State.complete resultOf
  split
  · rename_i h
    have : op.code ≠ 0 := by
      intro h0
      simp [meetsUnsupported, h0] at h
    simp only [State.raise, State.endWith, decide_eq_false this, Bool.or_false]
  · rw [State.finish_seq]

end Complete

/-! ## A run of an operation -/

/-- The units of a list, each presented and delivered with status 0, and counted (R114). -/
def State.deliverAll (s : State) (l : List Planned) : State :=
  l.foldl (fun s p => ((s.present p).settle p.txn 0).countUnit) s

@[simp] theorem State.deliverAll_nil (s : State) : s.deliverAll [] = s := rfl

theorem State.deliverAll_cons (s : State) (p : Planned) (l : List Planned) :
    s.deliverAll (p :: l) = (((s.present p).settle p.txn 0).countUnit).deliverAll l := rfl

theorem State.deliverAll_append (s : State) (k l : List Planned) :
    s.deliverAll (k ++ l) = (s.deliverAll k).deliverAll l := List.foldl_append

section Deliver
variable (s : State) (l : List Planned)

theorem State.deliverAll_seq : (s.deliverAll l).seq = { s.seq with idx := s.seq.idx + l.length } := by
  induction l generalizing s with
  | nil => rfl
  | cons p l ih =>
    rw [State.deliverAll_cons, ih]
    simp [State.countUnit]
    omega

theorem State.deliverAll_bus (h : s.port.bus = none) : (s.deliverAll l).port = s.port := by
  induction l generalizing s with
  | nil => rfl
  | cons p l ih =>
    rw [State.deliverAll_cons, ih _ (by simp)]
    unfold State.present
    split <;> simp [← h]

theorem State.deliverAll_hist :
    (s.deliverAll l).m.hist = s.m.hist ++ l.map fun p => ⟨p.txn, 0⟩ := by
  induction l generalizing s with
  | nil => simp
  | cons p l ih => rw [State.deliverAll_cons, ih]; simp

theorem State.deliverAll_wf (h : s.rx.fb.wf) : (s.deliverAll l).rx.fb.wf := by
  induction l generalizing s with
  | nil => exact h
  | cons p l ih => exact ih _ ((s.present p).settle_wf p.txn 0 (by simpa using h))

end Deliver

theorem State.runOn_none {s : State} (h : s.port.bus = none) (as : List Status) : s.runOn as = s.setAnswers as := by
  cases as <;> simp [State.runOn, h]

theorem State.runOn_some {s : State} {t : Txn} (h : s.port.bus = some t) (st : Status) (as : List Status) :
    s.runOn (st :: as) = ((s.settle t st).proceed st).runOn as := by
  simp [State.runOn, State.transact, h]

/-- The engine between two transactions of the operation `op`: nothing outstanding, the rest of its expansion is `l`. -/
structure Between (s : State) (op : OpLatch) (l : List Planned) : Prop where
  busy : s.seq.busy = true
  latched : s.seq.op = some op
  bus : s.port.bus = none
  rest : (expand op).drop s.seq.idx = l

theorem Between.advance_cons {s : State} {op : OpLatch} {p : Planned} {l : List Planned} (h : Between s op (p :: l)) :
    s.advance op = s.present p := by
  have : (expand op)[s.seq.idx]? = some p := by
    have h2 := congrArg (·[0]?) h.rest
    simpa using h2
  simp [State.advance, this]

theorem Between.advance_nil {s : State} {op : OpLatch} (h : Between s op []) : s.advance op = s.complete op := by
  have : (expand op)[s.seq.idx]? = none := List.getElem?_eq_none (List.drop_eq_nil_iff.1 h.rest)
  simp [State.advance, this]

theorem Between.next {s : State} {op : OpLatch} {p : Planned} {l : List Planned} (h : Between s op (p :: l)) :
    Between ((s.present p).settle p.txn 0).countUnit op l where
  busy := by simp [h.busy]
  latched := by simp [h.latched]
  bus := by simp
  rest := by
    have h2 := congrArg List.tail h.rest
    simpa [List.tail_drop] using h2

theorem Between.proceed_zero {s : State} {op : OpLatch} {p : Planned} {l : List Planned} (h : Between s op (p :: l)) :
    ((s.present p).settle p.txn 0).proceed 0 = (((s.present p).settle p.txn 0).countUnit).advance op := by
  simp [State.proceed, h.busy, h.latched]

theorem Between.proceed_fail {s : State} {op : OpLatch} {p : Planned} {l : List Planned} (h : Between s op (p :: l))
    {st : Status} (hst : st ≠ 0) :
    ((s.present p).settle p.txn st).proceed st = ((s.present p).settle p.txn st).raise (.busFailure st) := by
  simp only [State.proceed, State.settle_seq, State.present_seq, h.busy, h.latched, if_neg hst, if_true]

/-- The transport answers 0 to the first `n` of the remaining transactions and then has the answers `as`. -/
theorem Between.run_zeros {s : State} {op : OpLatch} {k l : List Planned} (h : Between s op (k ++ l))
    (as : List Status) :
    (s.advance op).runOn (List.replicate k.length 0 ++ as) = ((s.deliverAll k).advance op).runOn as
      ∧ Between (s.deliverAll k) op l := by
  induction k generalizing s with
  | nil => exact ⟨rfl, h⟩
  | cons p k ih =>
    rw [List.cons_append] at h
    rw [h.advance_cons, List.length_cons, List.replicate_succ, List.cons_append,
      State.runOn_some (State.present_bus s p), h.proceed_zero, State.deliverAll_cons]
    exact ih h.next

/-- Every remaining transaction returns 0: the operation ends with its result (R114, R200). -/
theorem Between.run_done {s : State} {op : OpLatch} {l : List Planned} (h : Between s op l) (as : List Status) :
    (s.advance op).runOn (List.replicate l.length 0 ++ as) = ((s.deliverAll l).complete op).setAnswers as := by
  have hl : Between s op (l ++ []) := by simpa using h
  obtain ⟨h1, h2⟩ := hl.run_zeros as
  rw [h1, h2.advance_nil, State.runOn_none]
  rw [State.complete_port]
  exact h2.bus

/-- The first non-zero status ends the operation there (R114, R201, R206). -/
theorem Between.run_fail {s : State} {op : OpLatch} {k l : List Planned} {p : Planned}
    (h : Between s op (k ++ p :: l)) {st : Status} (hst : st ≠ 0) (as : List Status) :
    (s.advance op).runOn (List.replicate k.length 0 ++ st :: as) =
      ((((s.deliverAll k).present p).settle p.txn st).raise (.busFailure st)).setAnswers as := by
  obtain ⟨h1, h2⟩ := h.run_zeros (st :: as)
  rw [h1, h2.advance_cons, State.runOn_some (State.present_bus _ p), h2.proceed_fail hst, State.runOn_none]
  simp [State.raise, State.settle_port]

/-- The transport falls silent: the next transaction stays outstanding (R113, R240). -/
theorem Between.run_held {s : State} {op : OpLatch} {k l : List Planned} {p : Planned}
    (h : Between s op (k ++ p :: l)) :
    (s.advance op).runOn (List.replicate k.length 0) = ((s.deliverAll k).present p).setAnswers [] := by
  obtain ⟨h1, h2⟩ := h.run_zeros []
  rw [List.append_nil] at h1
  rw [h1, h2.advance_cons]
  rfl

theorem State.idle_iff {s : State} : s.idle = true ↔ s.seq.busy = false ∧ s.port.bus = none := by
  cases h : s.port.bus <;> simp [State.idle, h]

/-- An accepted request stands before the first transaction of its expansion (R24). -/
theorem Between.accept {s : State} (h : s.idle = true) (op : OpLatch) (n : Nat) :
    Between (s.accept op n) op (expand op) where
  busy := rfl
  latched := rfl
  bus := (State.idle_iff.1 h).2
  rest := rfl

theorem State.perform_idle {s : State} (h : s.idle = true) (op : OpLatch) :
    s.perform op = ((s.accept op 0).advance op).runOn s.port.answers := by
  have : ((s.accept op 0).advance op).port.answers = s.port.answers := by
    unfold State.advance
    split <;> simp
  simp [State.perform, h, State.run, this]

/-- A request presented to a busy block has no effect (R23). -/
theorem State.perform_busy {s : State} (h : s.idle = false) (op : OpLatch) : s.perform op = s := by
  simp [State.perform, h]

/-! ## Every run is made of transactions -/

/-- What holds before a run and is kept by every transaction of it, and by what the transport has left, holds after. -/
theorem State.runOn_induction (P : State → Prop) (htxn : ∀ s t st, s.port.bus = some t → P s → P ((s.settle t st).proceed st))
    (hans : ∀ s as, P s → P (s.setAnswers as)) (s : State) (as : List Status) (h : P s) : P (s.runOn as) := by
  induction as generalizing s with
  | nil => exact hans _ _ h
  | cons st as ih =>
    cases hb : s.port.bus with
    | none => rw [State.runOn_none hb]; exact hans _ _ h
    | some t => rw [State.runOn_some hb]; exact ih _ (htxn s t st hb h)

end Sys2Proof.Machine
end

