-- ==== Sys2Proof/Laws/Expand.lean ====
section
/-! SUPPORT. What an expansion is made of: every entry is a probe (of PROBE alone) or a write of a unit that the receiver
has a rule for (R93, R98). -/

namespace Sys2Proof.Machine

theorem colLoByte_eq (c : Nat) : colLoByte c = packColLo (BitVec.ofNat 4 c) := by
  have h : ∀ b : Byte, Config.colLoBase ||| (b &&& 0x0F) = packColLo (b.setWidth 4) := by decide
  rw [colLoByte, h, BitVec.setWidth_ofNat_of_le (by decide)]

theorem colHiByte_eq (c : Nat) : colHiByte c = packColHi (BitVec.ofNat 4 (c / 16)) := by
  have h : ∀ b : Byte, Config.colHiBase ||| ((b >>> 4) &&& 0x0F) = packColHi (BitVec.ofNat 4 (b.toNat / 16)) := by decide
  rw [colHiByte, h]
  congr 1
  apply BitVec.eq_of_toNat_eq
  simp only [BitVec.toNat_ofNat]
  omega

theorem pageByte_eq (r : Nat) : pageByte r = packPageSel (BitVec.ofNat 3 r) := by
  have h : ∀ b : Byte, Config.pageSelBase ||| (b &&& 0x07) = packPageSel (b.setWidth 3) := by decide
  rw [pageByte, h, BitVec.setWidth_ofNat_of_le (by decide)]

/-- The three cursor commands decode to the commands of R88 to R90. -/
theorem decodeUnit_page (r : Nat) :
    decodeUnit .cursor Config.ctrlCmd (pageByte r) = .ok (.pageSel (BitVec.ofNat 3 r)) := by
  have h : ∀ p : BitVec 3, decodeUnit .cursor Config.ctrlCmd (packPageSel p) = .ok (.pageSel p) := by decide
  rw [pageByte_eq, h]
theorem decodeUnit_colLo (c : Nat) :
    decodeUnit .cursor Config.ctrlCmd (colLoByte c) = .ok (.colLo (BitVec.ofNat 4 c)) := by
  have h : ∀ n : BitVec 4, decodeUnit .cursor Config.ctrlCmd (packColLo n) = .ok (.colLo n) := by decide
  rw [colLoByte_eq, h]
theorem decodeUnit_colHi (c : Nat) :
    decodeUnit .cursor Config.ctrlCmd (colHiByte c) = .ok (.colHi (BitVec.ofNat 4 (c / 16))) := by
  have h : ∀ n : BitVec 4, decodeUnit .cursor Config.ctrlCmd (packColHi n) = .ok (.colHi n) := by decide
  rw [colHiByte_eq, h]
theorem decodeUnit_data (d : Byte) : decodeUnit .data Config.ctrlData d = .ok (.dataWr d) := rfl
theorem decodeUnit_cfg (b : Byte) : decodeUnit .initCfg Config.ctrlCmd b = .ok (.cfg b) := rfl

theorem legal_probe : Txn.probe.legal = true := by simp [Txn.legal, Txn.probe]
theorem legal_cfg (b : Byte) : (Txn.command b .initCfg).legal = true := by
  simp [Txn.legal, Txn.command, Txn.ofUnit, decodeUnit_cfg, Except.isOk, Except.toBool]
theorem legal_data (d : Byte) : (Txn.data d).legal = true := by
  simp [Txn.legal, Txn.data, Txn.ofUnit, decodeUnit_data, Except.isOk, Except.toBool]
theorem legal_page (r : Nat) : (Txn.command (pageByte r) .cursor).legal = true := by
  simp [Txn.legal, Txn.command, Txn.ofUnit, decodeUnit_page, Except.isOk, Except.toBool]
theorem legal_colLo (c : Nat) : (Txn.command (colLoByte c) .cursor).legal = true := by
  simp [Txn.legal, Txn.command, Txn.ofUnit, decodeUnit_colLo, Except.isOk, Except.toBool]
theorem legal_colHi (c : Nat) : (Txn.command (colHiByte c) .cursor).legal = true := by
  simp [Txn.legal, Txn.command, Txn.ofUnit, decodeUnit_colHi, Except.isOk, Except.toBool]

/-- The unit of a write is one the receiver has a rule for. -/
def Planned.isWrite (p : Planned) : Prop := p.txn.kind = .write ∧ p.txn.legal = true

theorem plannedData_isWrite (d : Byte) : (plannedData d).isWrite := ⟨rfl, legal_data d⟩
theorem plannedCfg_isWrite (b : Byte) : (plannedCfg b).isWrite := ⟨rfl, legal_cfg b⟩

theorem cursorUnits_isWrite {x y : Nat} {p : Planned} (h : p ∈ cursorUnits x y) : p.isWrite := by
  simp only [cursorUnits, List.mem_cons, List.not_mem_nil, or_false] at h
  rcases h with rfl | rfl | rfl
  · exact ⟨rfl, legal_page y⟩
  · exact ⟨rfl, legal_colLo x⟩
  · exact ⟨rfl, legal_colHi x⟩

theorem glyphUnits_isWrite {ch : Byte} {inv : Bool} {p : Planned} (h : p ∈ glyphUnits ch inv) : p.isWrite := by
  obtain ⟨d, -, rfl⟩ := List.mem_map.1 h
  exact plannedData_isWrite d

theorem cellUnits_isWrite {x y : Byte} {col row : Fin 5} {p : Planned} (h : p ∈ cellUnits x y col row) : p.isWrite := by
  rcases List.mem_append.1 h with h | h
  · exact cursorUnits_isWrite h
  · obtain ⟨k, -, rfl⟩ := List.mem_map.1 h
    exact plannedData_isWrite _

theorem bitmapUnits_isWrite {x y : Byte} {p : Planned} (h : p ∈ bitmapUnits x y) : p.isWrite := by
  obtain ⟨row, -, h⟩ := List.mem_flatMap.1 h
  obtain ⟨col, -, h⟩ := List.mem_flatMap.1 h
  exact cellUnits_isWrite h

/-- Every entry of an expansion is a write the receiver has a rule for, or it is the one probe of PROBE (R93, R98). -/
theorem mem_expand {op : OpLatch} {p : Planned} (h : p ∈ expand op) :
    p.isWrite ∨ (expand op = [⟨.probe, false⟩] ∧ p = ⟨.probe, false⟩) := by
  unfold expand at h ⊢
  split at h
  · rcases List.mem_append.1 h with h | h
    · obtain ⟨b, -, rfl⟩ := List.mem_map.1 h
      exact .inl (plannedCfg_isWrite b)
    · exact .inl (cursorUnits_isWrite h)
  · exact .inr ⟨rfl, by simpa using h⟩
  · exact .inl (cursorUnits_isWrite h)
  · rw [List.eq_of_mem_replicate h]
    exact .inl (plannedData_isWrite _)
  · rw [List.eq_of_mem_replicate h]
    exact .inl (plannedData_isWrite _)
  · split at h
    · exact .inl (glyphUnits_isWrite h)
    · exact absurd h List.not_mem_nil
  · rcases List.mem_append.1 h with h | h
    · exact .inl (cursorUnits_isWrite h)
    · obtain ⟨c, -, h⟩ := List.mem_flatMap.1 h
      exact .inl (glyphUnits_isWrite h)
  · exact .inl (bitmapUnits_isWrite h)

theorem legal_of_mem_expand {op : OpLatch} {p : Planned} (h : p ∈ expand op) : p.txn.legal = true := by
  rcases mem_expand h with h | ⟨-, rfl⟩
  · exact h.2
  · exact legal_probe

/-- The receiver has a rule for every legal transaction, whatever its status (R175, R184, R186). -/
theorem deliverable_of_legal {t : Txn} (h : t.legal = true) (st : Status) : deliverable t st = true := by
  rcases t with ⟨k, a, u, o⟩
  cases k with
  | probe => simp [deliverable]
  | write =>
    cases u with
    | none => simp [Txn.legal] at h
    | some u =>
      simp only [Txn.legal, Bool.and_eq_true] at h
      simp [deliverable, h.2]

/-- INIT_LEN is at least 16: sixteen groups of at least one byte (R7, R121). -/
theorem initLen_ge : 16 ≤ Config.initLen := by
  have h : ∀ l : List Config.InitGroup, l.length ≤ (l.flatMap Config.InitGroup.bytes).length := by
    intro l
    induction l with
    | nil => simp
    | cons g l ih =>
      have hg : 1 ≤ g.bytes.length := by simp [Config.InitGroup.bytes]
      rw [List.flatMap_cons, List.length_append, List.length_cons]
      omega
  have := h Config.initGroups.toList
  simpa [Config.initLen, Config.initSeq] using this

end Sys2Proof.Machine
end

