-- ==== Sys2Proof/Laws/Answers.lean ====
section
/-! SUPPORT. Nothing but the run loop looks at what the transport will still answer (R117): every operation of the engine
commutes with giving the transport other answers, so that a run may be cut in two anywhere (R67, R113). -/

namespace Sys2Proof.Machine

theorem State.reacting_setAnswers (s : State) (as : List Status) {r : State → State}
    (h : r (s.setAnswers as) = (r s).setAnswers as) :
    (s.setAnswers as).reacting r = (s.reacting r).setAnswers as := by
  cases hl : s.rxLost
  · rw [State.reacting_known hl, State.reacting_known (s := s.setAnswers as) hl, h]
  · rw [State.reacting, State.reacting, if_pos hl, if_pos (show (s.setAnswers as).rxLost = true from hl)]
    rfl

theorem rxColHi_setAnswers (n : BitVec 4) (s : State) (as : List Status) :
    rxColHi n (s.setAnswers as) = (rxColHi n s).setAnswers as := by
  unfold rxColHi
  by_cases h : n.toNat ≤ 7
  · rw [if_pos h, if_pos h]
    exact State.reacting_setAnswers s as rfl
  · rw [if_neg h, if_neg h, State.reacting_setAnswers s as rfl]
    rfl

theorem State.advanceCursor_setAnswers (s : State) (as : List Status) :
    (s.setAnswers as).advanceCursor = s.advanceCursor.setAnswers as := by
  by_cases h1 : s.rx.col.toNat < 127
  · simp [State.advanceCursor, h1]
    rfl
  · by_cases h2 : s.rx.page.toNat < 7
    · simp [State.advanceCursor, h1, h2]
      rfl
    · simp [State.advanceCursor, h1, h2]
      rfl

theorem rxDataWr_setAnswers (d : Byte) (s : State) (as : List Status) :
    rxDataWr d (s.setAnswers as) = (rxDataWr d s).setAnswers as := by
  cases h : s.seq.ready
  · simp only [rxDataWr, State.setAnswers_seq, h, State.reacting_setAnswers s as (r := State.storeSomewhere) rfl]
    rfl
  · simp only [rxDataWr, State.setAnswers_seq, h, if_true]
    exact State.reacting_setAnswers s as (State.advanceCursor_setAnswers (s.storeAtCursor d) as)

theorem receive_setAnswers (o : Origin) (c p : Byte) (s : State) (as : List Status) :
    receive o c p (s.setAnswers as) = (receive o c p s).setAnswers as := by
  unfold receive
  split
  · exact State.reacting_setAnswers s as rfl
  · exact State.reacting_setAnswers s as rfl
  · exact rxColHi_setAnswers _ s as
  · exact rxDataWr_setAnswers _ s as
  · exact State.reacting_setAnswers s as rfl
  · rfl
  · rfl

theorem rxFailedWrite_setAnswers (o : Origin) (s : State) (as : List Status) :
    rxFailedWrite o (s.setAnswers as) = (rxFailedWrite o s).setAnswers as := by
  simp only [rxFailedWrite, State.reacting_setAnswers s as (r := fun s => s.disturbRx o) rfl]
  rfl

theorem State.settle_setAnswers (s : State) (t : Txn) (st : Status) (as : List Status) :
    (s.setAnswers as).settle t st = (s.settle t st).setAnswers as := by
  unfold State.settle
  split
  · by_cases h : st = 0
    · rw [if_pos h, if_pos h]
      exact receive_setAnswers _ _ _ ({ s with port := { s.port with bus := none } }.record t st) as
    · rw [if_neg h, if_neg h]
      exact rxFailedWrite_setAnswers _ ({ s with port := { s.port with bus := none } }.record t st) as
  · rfl
  · rfl

theorem State.present_setAnswers (s : State) (p : Planned) (as : List Status) :
    (s.setAnswers as).present p = (s.present p).setAnswers as := by
  cases h : p.outOfRange <;> simp only [State.present, h] <;> rfl

theorem State.complete_setAnswers (s : State) (op : OpLatch) (as : List Status) :
    (s.setAnswers as).complete op = (s.complete op).setAnswers as := by
  cases h : meetsUnsupported op
  · cases h2 : decide (op.code = 0) <;> simp only [State.complete, h, h2, State.finish] <;> rfl
  · simp only [State.complete, h]
    rfl

theorem State.advance_setAnswers (s : State) (op : OpLatch) (as : List Status) :
    (s.setAnswers as).advance op = (s.advance op).setAnswers as := by
  cases h : (expand op)[s.seq.idx]? with
  | none =>
    simp only [State.advance, State.setAnswers_seq, h]
    exact State.complete_setAnswers s op as
  | some p =>
    simp only [State.advance, State.setAnswers_seq, h]
    exact State.present_setAnswers s p as

theorem State.proceed_setAnswers (s : State) (st : Status) (as : List Status) :
    (s.setAnswers as).proceed st = (s.proceed st).setAnswers as := by
  cases hb : s.seq.busy
  · simp only [State.proceed, State.setAnswers_seq, hb]
    rfl
  · cases ho : s.seq.op with
    | none =>
      simp only [State.proceed, State.setAnswers_seq, hb, ho]
      rfl
    | some op =>
      simp only [State.proceed, State.setAnswers_seq, hb, ho, if_true]
      by_cases h : st = 0
      · rw [if_pos h, if_pos h]
        exact State.advance_setAnswers s.countUnit op as
      · rw [if_neg h, if_neg h]
        rfl

/-- A run uses the answers it is given and no others. -/
theorem State.runOn_setAnswers (s : State) (bs as : List Status) : (s.setAnswers bs).runOn as = s.runOn as := by
  induction as generalizing s with
  | nil => rfl
  | cons st as ih =>
    cases hb : s.port.bus with
    | none =>
      rw [State.runOn_none hb, State.runOn_none (by simpa using hb)]
      rfl
    | some t =>
      rw [State.runOn_some hb, State.runOn_some (t := t) (by simpa using hb), State.settle_setAnswers,
        State.proceed_setAnswers, ih]

/-- A run that is still waiting after the answers `as` goes on with `bs` as if it had had both (R67). -/
theorem State.runOn_append (s : State) (as bs : List Status) (h : (s.runOn as).port.bus ≠ none) :
    s.runOn (as ++ bs) = (s.runOn as).runOn bs := by
  induction as generalizing s with
  | nil => simp [State.runOn, State.runOn_setAnswers]
  | cons st as ih =>
    cases hb : s.port.bus with
    | none =>
      rw [State.runOn_none hb] at h
      exact absurd hb h
    | some t =>
      rw [State.runOn_some hb] at h ⊢
      rw [List.cons_append, State.runOn_some hb, ih _ h]

end Sys2Proof.Machine
end

