-- ==== Sys2Proof/Laws/Encode.lean ====
section
/-! SUPPORT. The fields of a packed word are the ones it was packed from, and a packed command byte is read back as its
command. -/

namespace Sys2Proof

section Fields
variable (code : BitVec 3) (inv : Bool) (ch y x : Byte)

theorem packRequest_toNat : (packRequest code inv ch y x).toNat =
    code.toNat * 2 ^ 29 + inv.toNat * 2 ^ 24 + ch.toNat * 2 ^ 16 + y.toNat * 2 ^ 8 + x.toNat := by
  have h1 := ch.isLt
  have h2 := y.isLt
  have h3 := x.isLt
  have h4 := (BitVec.ofBool inv).isLt
  simp only [packRequest, BitVec.toNat_append, BitVec.toNat_ofBool, BitVec.toNat_ofNat] at *
  rw [← Nat.shiftLeft_add_eq_or_of_lt h3, ← Nat.shiftLeft_add_eq_or_of_lt h2, ← Nat.shiftLeft_add_eq_or_of_lt h1,
    ← Nat.shiftLeft_add_eq_or_of_lt h4]
  simp only [Nat.shiftLeft_eq]
  simp
  omega

theorem packCharacter_toNat (c : Byte) : (packCharacter c).toNat = c.toNat := by
  simp only [packCharacter]
  rw [BitVec.toNat_append]
  simp

end Fields

/-- A field of a word is digits of its number. -/
theorem extractLsb'_toNat (w : Word) (lo n : Nat) : (w.extractLsb' lo n).toNat = w.toNat / 2 ^ lo % 2 ^ n := by
  simp [BitVec.extractLsb', Nat.shiftRight_eq_div_pow]

section Unpack
variable (code : BitVec 3) (inv : Bool) (ch y x : Byte)

@[simp] theorem fieldCode_pack : fieldCode (packRequest code inv ch y x) = code := by
  apply BitVec.eq_of_toNat_eq
  have := ch.isLt
  have := y.isLt
  have := x.isLt
  have := code.isLt
  have := inv.toNat_lt
  rw [fieldCode, extractLsb'_toNat, packRequest_toNat]
  omega

@[simp] theorem fieldCh_pack : fieldCh (packRequest code inv ch y x) = ch := by
  apply BitVec.eq_of_toNat_eq
  have := ch.isLt
  have := y.isLt
  have := x.isLt
  rw [fieldCh, extractLsb'_toNat, packRequest_toNat]
  omega

@[simp] theorem fieldY_pack : fieldY (packRequest code inv ch y x) = y := by
  apply BitVec.eq_of_toNat_eq
  have := y.isLt
  have := x.isLt
  rw [fieldY, extractLsb'_toNat, packRequest_toNat]
  omega

@[simp] theorem fieldX_pack : fieldX (packRequest code inv ch y x) = x := by
  apply BitVec.eq_of_toNat_eq
  have := x.isLt
  rw [fieldX, extractLsb'_toNat, packRequest_toNat]
  omega

@[simp] theorem fieldInv_pack : fieldInv (packRequest code inv ch y x) = inv := by
  have := ch.isLt
  have := y.isLt
  have := x.isLt
  rw [fieldInv, BitVec.getLsbD, packRequest_toNat, Nat.testBit_eq_decide_div_mod_eq]
  cases inv <;> simp <;> omega

@[simp] theorem fieldX_packCharacter (c : Byte) : fieldX (packCharacter c) = c := by
  apply BitVec.eq_of_toNat_eq
  have := c.isLt
  rw [fieldX, extractLsb'_toNat, packCharacter_toNat]
  omega

end Unpack

theorem decodeCursorCommand_pageSel : ∀ p : BitVec 3, decodeCursorCommand (packPageSel p) = .ok (.pageSel p) := by decide
theorem decodeCursorCommand_colLo : ∀ n : BitVec 4, decodeCursorCommand (packColLo n) = .ok (.colLo n) := by decide
theorem decodeCursorCommand_colHi : ∀ n : BitVec 4, decodeCursorCommand (packColHi n) = .ok (.colHi n) := by decide

end Sys2Proof
end

