-- ==== Sys2Proof/Laws/Stream.lean ====
section
/-! SUPPORT. What the units of an expansion do at the receiver when all of them are delivered: a run of data units stores
its bytes one behind another (R179, R180), a cursor-set names the position whatever it was before (R131, R176 to R178).
-/

namespace Sys2Proof.Machine

section Advance
variable (s : State)

@[simp] theorem State.advanceCursor_fb : s.advanceCursor.rx.fb = s.rx.fb := by
  unfold State.advanceCursor
  split
  · rfl
  · split <;> rfl

@[simp] theorem State.advanceCursor_cfg : s.advanceCursor.rx.cfg = s.rx.cfg := by
  unfold State.advanceCursor
  split
  · rfl
  · split <;> rfl

@[simp] theorem State.advanceCursor_faults : s.advanceCursor.m.faults = s.m.faults := by
  unfold State.advanceCursor
  split
  · rfl
  · split <;> rfl

end Advance

/-- A data unit at a ready display whose state is known: the store, then the advance (R179). -/
theorem rxDataWr_known {s : State} (hr : s.seq.ready = true) (h : s.rxLost = false) (d : Byte) :
    rxDataWr d s = (s.storeAtCursor d).advanceCursor := by
  simp [rxDataWr, hr, State.reacting_known h]

/-- One unit presented, delivered with status 0 and counted (R114). -/
def State.deliver (s : State) (p : Planned) : State := ((s.present p).settle p.txn 0).countUnit

theorem State.deliverAll_cons' (s : State) (p : Planned) (l : List Planned) :
    s.deliverAll (p :: l) = (s.deliver p).deliverAll l := rfl

@[simp] theorem State.deliver_ready (s : State) (p : Planned) : (s.deliver p).seq.ready = s.seq.ready := by
  simp [State.deliver]

section Data
variable {s : State} (d : Byte)

/-- A data unit delivered to a ready display whose state is known (R179). -/
theorem State.deliver_data (hr : s.seq.ready = true) (h : s.rxLost = false) :
    s.deliver (plannedData d) =
      (((({ s with port := { s.port with bus := none } } : State).record (.data d) 0).storeAtCursor d).advanceCursor).countUnit :=
  congrArg State.countUnit (rxDataWr_known
    (s := ({ s with port := { s.port with bus := none } } : State).record (.data d) 0) (by exact hr) (by exact h) d)

theorem State.deliver_data_fb (hr : s.seq.ready = true) (h : s.rxLost = false) :
    (s.deliver (plannedData d)).rx.fb = s.rx.fb.write (lin s.rx.page s.rx.col) d := by
  rw [State.deliver_data d hr h, State.countUnit_rx, State.advanceCursor_fb]
  rfl

theorem State.deliver_data_cfg (hr : s.seq.ready = true) (h : s.rxLost = false) :
    (s.deliver (plannedData d)).rx.cfg = s.rx.cfg := by
  rw [State.deliver_data d hr h, State.countUnit_rx, State.advanceCursor_cfg]
  rfl

theorem State.deliver_data_faults (hr : s.seq.ready = true) (h : s.rxLost = false) :
    (s.deliver (plannedData d)).m.faults = s.m.faults := by
  rw [State.deliver_data d hr h, State.countUnit_m, State.advanceCursor_faults]
  rfl

/-- The cursor moves on by one linear position (R180). -/
theorem State.deliver_data_cursor (hr : s.seq.ready = true) (h : s.rxLost = false) {L : Nat}
    (hc : s.CursorAt L) (hl : L < 1023) : (s.deliver (plannedData d)).CursorAt (L + 1) := by
  have hc : lin s.rx.page s.rx.col = L := hc
  have := lin_advanceCursor
    (s := (({ s with port := { s.port with bus := none } } : State).record (.data d) 0).storeAtCursor d)
    (by change lin s.rx.page s.rx.col < _; omega)
  change lin _ _ = _
  rw [State.deliver_data d hr h, State.countUnit_rx, this, ← hc]
  rfl

end Data

/-- Data units delivered one after another to a ready display from linear position `L`. -/
theorem State.deliverAll_data {s : State} {L : Nat} {ds : List Byte} (hr : s.seq.ready = true)
    (h : s.rxLost = false) (hc : s.CursorAt L) (hl : L + ds.length ≤ 1024) :
    let t := s.deliverAll (ds.map plannedData)
    t.m.faults = s.m.faults ∧ t.rx.cfg = s.rx.cfg ∧
      (∀ a, t.rx.fb.read a = if L ≤ a ∧ a < L + ds.length then ds[a - L]? else s.rx.fb.read a) ∧
      (L + ds.length < 1024 → t.CursorAt (L + ds.length)) := by
  induction ds generalizing s L with
  | nil =>
    refine ⟨rfl, rfl, fun a => ?_, fun _ => hc⟩
    rw [if_neg (by simp)]
    rfl
  | cons d ds ih =>
    have hf := State.deliver_data_faults d hr h
    have hfb := State.deliver_data_fb d hr h
    rw [show lin s.rx.page s.rx.col = L from hc] at hfb
    simp only [List.length_cons, List.map_cons, State.deliverAll_cons'] at hl ⊢
    cases ds with
    | nil =>
      refine ⟨hf, State.deliver_data_cfg d hr h, fun a => ?_,
        fun hL => State.deliver_data_cursor d hr h hc (by simp at hL; omega)⟩
      rw [List.map_nil, State.deliverAll_nil, hfb, Memory.read_write]
      by_cases e : L = a
      · simp [e]
      · rw [if_neg e, if_neg (by simp; omega)]
    | cons d' ds =>
      have hc' := State.deliver_data_cursor d hr h hc (by simp at hl; omega)
      obtain ⟨h1, h2, h3, h4⟩ := ih (s := s.deliver (plannedData d)) (by simpa using hr) ((State.rxLost_congr hf (by simp)).trans h) hc' (by omega)
      refine ⟨h1.trans hf, h2.trans (State.deliver_data_cfg d hr h), fun a => ?_, fun hL => ?_⟩
      · rw [h3, hfb, Memory.read_write]
        by_cases e : L = a
        · subst e
          rw [if_neg (by omega)]
          simp
        · by_cases e2 : L + 1 ≤ a ∧ a < L + 1 + (d' :: ds).length
          · rw [if_pos e2, if_pos (by omega), show a - L = a - (L + 1) + 1 by omega, List.getElem?_cons_succ]
          · rw [if_neg e2, if_neg e, if_neg (by omega)]
      · have := h4 (by omega)
        rwa [show L + 1 + (d' :: ds).length = L + ((d' :: ds).length + 1) by omega] at this

/-- Data units of one byte from linear position `L` to past the end: what is stored there or behind is that byte (R180,
R181). -/
theorem State.deliverAll_fill {s : State} {b : Byte} (n : Nat) (hr : s.seq.ready = true)
    (h : s.rxLost = false) :
    let t := s.deliverAll (List.replicate n (plannedData b))
    t.m.faults = s.m.faults ∧ t.rx.cfg = s.rx.cfg ∧
      ∀ a, s.rx.fb.read a = some b → t.rx.fb.read a = some b := by
  induction n generalizing s with
  | zero => exact ⟨rfl, rfl, fun _ h => h⟩
  | succ n ih =>
    have hf := State.deliver_data_faults b hr h
    rw [List.replicate_succ, State.deliverAll_cons']
    obtain ⟨h1, h2, h3⟩ := ih (s := s.deliver (plannedData b)) (by simpa using hr) ((State.rxLost_congr hf (by simp)).trans h)
    refine ⟨h1.trans hf, h2.trans (State.deliver_data_cfg b hr h), fun a ha => h3 a ?_⟩
    rw [State.deliver_data_fb b hr h, Memory.read_write]
    split
    · rfl
    · exact ha

/-- The three units of an in-range cursor-set, delivered to a display whose state is known, set page and column and
nothing else of the receiver (R131, R133, R176 to R178). -/
theorem State.deliverAll_cursor {s : State} {x y : Nat} (h : s.rxLost = false) (hb : s.port.bus = none)
    (hx : x < 128) (hy : y < 8) :
    s.deliverAll (cursorUnits x y) = { s with
      seq := { s.seq with idx := s.seq.idx + 3 }
      rx := { s.rx with page := BitVec.ofNat 3 y, col := BitVec.ofNat 7 x }
      m := { s.m with hist := s.m.hist ++ (cursorUnits x y).map fun p => ⟨p.txn, 0⟩ } } := by
  have hr : cursorOut x y = false := by
    simp [cursorOut, Config.width, Config.pages]
    omega
  have e1 : s.deliver ⟨.command (pageByte y) .cursor, cursorOut x y⟩ = { s with
      seq := { s.seq with idx := s.seq.idx + 1 }
      rx := { s.rx with page := BitVec.ofNat 3 y }
      m := { s.m with hist := s.m.hist ++ [⟨.command (pageByte y) .cursor, 0⟩] } } := by
    rw [hr]
    change (receive .cursor Config.ctrlCmd (pageByte y) _).countUnit = _
    rw [receive, decodeUnit_page]
    change (State.reacting _ _).countUnit = _
    rw [State.reacting_known (by exact h)]
    simp [State.countUnit, State.setRx, State.record, ← hb]
    rfl
  have e2 : ∀ s : State, s.rxLost = false → s.port.bus = none →
      s.deliver ⟨.command (colLoByte x) .cursor, false⟩ = { s with
        seq := { s.seq with idx := s.seq.idx + 1 }
        rx := { s.rx with col := s.rx.col.extractLsb' 4 3 ++ BitVec.ofNat 4 x }
        m := { s.m with hist := s.m.hist ++ [⟨.command (colLoByte x) .cursor, 0⟩] } } := by
    intro s h hb
    change (receive .cursor Config.ctrlCmd (colLoByte x) _).countUnit = _
    rw [receive, decodeUnit_colLo]
    change (State.reacting _ _).countUnit = _
    rw [State.reacting_known (by exact h)]
    simp [State.countUnit, State.setRx, State.record, ← hb]
    rfl
  have e3 : ∀ s : State, s.rxLost = false → s.port.bus = none →
      s.deliver ⟨.command (colHiByte x) .cursor, false⟩ = { s with
        seq := { s.seq with idx := s.seq.idx + 1 }
        rx := { s.rx with col := (BitVec.ofNat 4 (x / 16)).extractLsb' 0 3 ++ s.rx.col.extractLsb' 0 4 }
        m := { s.m with hist := s.m.hist ++ [⟨.command (colHiByte x) .cursor, 0⟩] } } := by
    intro s h hb
    change (receive .cursor Config.ctrlCmd (colHiByte x) _).countUnit = _
    rw [receive, decodeUnit_colHi]
    have hn : (BitVec.ofNat 4 (x / 16)).toNat ≤ 7 := by
      rw [BitVec.toNat_ofNat]
      omega
    change (rxColHi _ _).countUnit = _
    rw [rxColHi, if_pos hn, State.reacting_known (by exact h)]
    simp [State.countUnit, State.setRx, State.record, ← hb]
    rfl
  have hcol : ∀ c : BitVec 7, (BitVec.ofNat 4 (x / 16)).extractLsb' 0 3 ++
      (c.extractLsb' 4 3 ++ BitVec.ofNat 4 x).extractLsb' 0 4 = BitVec.ofNat 7 x := by
    intro c
    have hv : ∀ (c : BitVec 7) (n : BitVec 4), (c.extractLsb' 4 3 ++ n).extractLsb' 0 4 = n := by decide
    have hw : ∀ v : BitVec 7, (BitVec.ofNat 4 (v.toNat / 16)).extractLsb' 0 3 ++ BitVec.ofNat 4 v.toNat = v := by decide
    rw [hv]
    have := hw (BitVec.ofNat 7 x)
    rwa [BitVec.toNat_ofNat, Nat.mod_eq_of_lt (show x < 2 ^ 7 by omega)] at this
  rw [cursorUnits, State.deliverAll_cons', State.deliverAll_cons', State.deliverAll_cons', State.deliverAll_nil, e1,
    e2 _ (by exact h) (by exact hb), e3 _ (by exact h) (by exact hb), hcol]
  simp

end Sys2Proof.Machine
end

