-- ==== Sys2Proof/Laws/Operations.lean ====
section
/-! SUPPORT. Every operation of the table is the engine performing its latch, and the state it leaves when the transport
answers 0 throughout, in closed form. -/

namespace Sys2Proof.Machine

/-- Each of the eight operations performs its latch (R114). -/
theorem exec_of_latchOf {i : Instr} {op : OpLatch} (h : latchOf i = some op) (s : State) :
    exec i s = .next (s.perform op) := by
  cases i <;> simp [latchOf] at h <;> subst h <;> rfl

/-- An operation of an idle block whose transport answers 0 to each of its transactions (R114, R200). -/
theorem State.perform_done {s : State} {op : OpLatch} {n : Nat} {rest : List Status} (h : s.idle = true)
    (hn : (expand op).length = n) (ha : s.port.answers = List.replicate n 0 ++ rest) :
    s.perform op = (((s.accept op 0).deliverAll (expand op)).complete op).setAnswers rest := by
  rw [State.perform_idle h, ha, ← hn, (Between.accept h op 0).run_done]

section Done
variable {s : State} (h : s.idle = true) (op : OpLatch) (l : List Planned) (rest : List Status)
include h

/-- The ports after it. -/
theorem State.done_port : ((((s.accept op 0).deliverAll l).complete op).setAnswers rest).port =
    { s.port with bus := none, answers := rest, done := true } := by
  have hb := (State.idle_iff.1 h).2
  simp only [State.setAnswers, State.complete_port]
  rw [State.deliverAll_bus (s.accept op 0) l hb]
  simp [State.accept, hb]

end Done

section Done'
variable (s : State) (op : OpLatch) (l : List Planned) (rest : List Status)

/-- The sequencer after it. -/
theorem State.done_seq : ((((s.accept op 0).deliverAll l).complete op).setAnswers rest).seq =
    { s.seq with
      ready := s.seq.ready || (op.code = 0 : Bool), busy := false, op := none, idx := l.length, res := resultOf op
      want := 0 } := by
  rw [State.setAnswers_seq, State.complete_seq, State.deliverAll_seq]
  simp

/-- The receiver after it is the receiver after the units. -/
theorem State.done_rx : ((((s.accept op 0).deliverAll l).complete op).setAnswers rest).rx =
    ((s.accept op 0).deliverAll l).rx := by
  rw [State.setAnswers_rx, State.complete_rx]

/-- The bookkeeping after it is the one after the units. -/
theorem State.done_m : ((((s.accept op 0).deliverAll l).complete op).setAnswers rest).m =
    ((s.accept op 0).deliverAll l).m := by
  rw [State.setAnswers_m, State.complete_m]

end Done'

/-- The bytes of a delivered cursor-set as numbers (R94, R95). -/
theorem pageByte_number (r : Nat) : pageByte r = BitVec.ofNat 8 (0xB0 + r % 8) := by
  have h : ∀ p : BitVec 3, packPageSel p = BitVec.ofNat 8 (0xB0 + p.toNat) := by decide
  rw [pageByte_eq, h, BitVec.toNat_ofNat]

theorem colLoByte_number (c : Nat) : colLoByte c = BitVec.ofNat 8 (c % 16) := by
  have h : ∀ n : BitVec 4, packColLo n = BitVec.ofNat 8 n.toNat := by decide
  rw [colLoByte_eq, h, BitVec.toNat_ofNat]

theorem colHiByte_number (c : Nat) : colHiByte c = BitVec.ofNat 8 (0x10 + c / 16 % 16) := by
  have h : ∀ n : BitVec 4, packColHi n = BitVec.ofNat 8 (0x10 + n.toNat) := by decide
  rw [colHiByte_eq, h, BitVec.toNat_ofNat]

end Sys2Proof.Machine
end

