-- ==== Sys2Proof/Laws/PerInstr.lean ====
section
/-! SUPPORT. For every instruction: its canonical code carries the fixed bits of its row in spec/opcode_table.json. -/

namespace Sys2Proof.Laws

/-- The fixed bits of an OPREQ row: `W[31:29]` is the operation code (R82: `match = code << 29`, `mask = 0xE0000000`). -/
def FirstWordHasCode (code : BitVec 3) (c : Code) : Prop := ∃ w ws, c = .words (w :: ws) ∧ w.extractLsb' 29 3 = code

/-- The fixed bits of a unit row: the control byte and, for a cursor command, the high bits of the command byte (R86 to
R90). -/
def UnitHasBits (ctrl : Byte) (mask value : Byte) (c : Code) : Prop := ∃ p, c = .unit ctrl p ∧ p &&& mask = value

namespace FixedBits

/-- The code of an instruction has its row's fixed bits. -/
def Statement : Instr → Prop
  | .initialise => FirstWordHasCode 0 (encode .initialise)
  | .probe => FirstWordHasCode 1 (encode .probe)
  | .setCursor x y => FirstWordHasCode 2 (encode (.setCursor x y))
  | .clearAll => FirstWordHasCode 3 (encode .clearAll)
  | .fillAll => FirstWordHasCode 4 (encode .fillAll)
  | .drawGlyph ch inv => FirstWordHasCode 5 (encode (.drawGlyph ch inv))
  | .drawText text x y inv => FirstWordHasCode 6 (encode (.drawText text x y inv))
  | .drawBitmap x y => FirstWordHasCode 7 (encode (.drawBitmap x y))
  | .charWord c => ∃ w, encode (.charWord c) = .words [w] ∧ w.extractLsb' 0 8 = c
  | .dataWr d => UnitHasBits 0x40 0x00 0x00 (encode (.dataWr d))
  | .pageSel p => UnitHasBits 0x00 0xF8 0xB0 (encode (.pageSel p))
  | .colLo n => UnitHasBits 0x00 0xF0 0x00 (encode (.colLo n))
  | .colHi n => UnitHasBits 0x00 0xF0 0x10 (encode (.colHi n))
  | .cfg b => UnitHasBits 0x00 0x00 0x00 (encode (.cfg b))
  | .prb => encode .prb = .probe
  | .cmd b => UnitHasBits 0x00 0x00 0x00 (encode (.cmd b))
  | .dat d => UnitHasBits 0x40 0x00 0x00 (encode (.dat d))

theorem initialise : Statement .initialise := ⟨_, _, rfl, fieldCode_pack 0 false 0 0 0⟩
theorem probe : Statement .probe := ⟨_, _, rfl, fieldCode_pack 1 false 0 0 0⟩
theorem setCursor (x y : Byte) : Statement (.setCursor x y) := ⟨_, _, rfl, fieldCode_pack 2 false 0 y x⟩
theorem clearAll : Statement .clearAll := ⟨_, _, rfl, fieldCode_pack 3 false 0 0 0⟩
theorem fillAll : Statement .fillAll := ⟨_, _, rfl, fieldCode_pack 4 false 0 0 0⟩
theorem drawGlyph (ch : Byte) (inv : Bool) : Statement (.drawGlyph ch inv) := ⟨_, _, rfl, fieldCode_pack 5 inv ch 0 0⟩
theorem drawText (text : List Byte) (x y : Byte) (inv : Bool) : Statement (.drawText text x y inv) :=
  ⟨_, _, rfl, fieldCode_pack 6 inv (BitVec.ofNat 8 text.length) y x⟩
theorem drawBitmap (x y : Byte) : Statement (.drawBitmap x y) := ⟨_, _, rfl, fieldCode_pack 7 false 0 y x⟩
theorem charWord (c : Byte) : Statement (.charWord c) := ⟨_, rfl, fieldX_packCharacter c⟩
theorem dataWr (d : Byte) : Statement (.dataWr d) := ⟨d, rfl, BitVec.and_zero⟩
theorem pageSel (p : BitVec 3) : Statement (.pageSel p) := ⟨_, rfl, by revert p; decide⟩
theorem colLo (n : BitVec 4) : Statement (.colLo n) := ⟨_, rfl, by revert n; decide⟩
theorem colHi (n : BitVec 4) : Statement (.colHi n) := ⟨_, rfl, by revert n; decide⟩
theorem cfg (b : Byte) : Statement (.cfg b) := ⟨b, rfl, BitVec.and_zero⟩
theorem prb : Statement .prb := rfl
theorem cmd (b : Byte) : Statement (.cmd b) := ⟨b, rfl, BitVec.and_zero⟩
theorem dat (d : Byte) : Statement (.dat d) := ⟨d, rfl, BitVec.and_zero⟩

end FixedBits

end Sys2Proof.Laws
end

