-- ==== Sys2Proof/Laws/Step.lean ====
section
/-! SUPPORT. Everything a step can do (`step_cases`), said once; and what the request port's decoder can answer. -/

namespace Sys2Proof.Machine

/-- The eight codes. -/
theorem code_cases (c : BitVec 3) : c = 0 ∨ c = 1 ∨ c = 2 ∨ c = 3 ∨ c = 4 ∨ c = 5 ∨ c = 6 ∨ c = 7 := by
  revert c
  decide

/-- The decoder of the request port refuses only a DRAW_TEXT whose character words are not all there (R82, R84). -/
theorem decodeRequest_error {w : Word} {ws : List Word} {e : DecodeError} (h : decodeRequest (w :: ws) = .error e) :
    fieldCode w = 6 ∧ ws.length < (fieldCh w).toNat := by
  simp only [decodeRequest] at h
  rcases code_cases (fieldCode w) with c | c | c | c | c | c | c | c <;> rw [c] at h
  case inr.inr.inr.inr.inr.inr.inl =>
    refine ⟨c, ?_⟩
    change (if _ then _ else _) = _ at h
    split at h
    · cases h
    · omega
  all_goals cases h

/-- What it answers is an operation (R80). -/
theorem latchOf_decodeRequest {ws rest : List Word} {i : Instr} (h : decodeRequest ws = .ok (i, rest)) :
    ∃ op, latchOf i = some op := by
  cases ws with
  | nil => cases h
  | cons w ws =>
    simp only [decodeRequest] at h
    rcases code_cases (fieldCode w) with c | c | c | c | c | c | c | c <;> rw [c] at h
    case inr.inr.inr.inr.inr.inr.inl =>
      change (if _ then _ else _) = _ at h
      split at h <;> cases h
      exact ⟨_, rfl⟩
    all_goals
      cases h
      exact ⟨_, rfl⟩

/-- A character word where one is awaited (R84). -/
theorem execCharWord_awaited {s : State} {op : OpLatch} (hb : s.port.bus = none) (hi : s.seq.busy = true) (ho : s.seq.op = some op)
    (hw : s.seq.want ≠ 0) (c : Byte) : execCharWord c s = .next (s.takeCharacter op c) := by
  simp [execCharWord, hb, hi, ho, hw]

section Fetch
variable {s : State}

theorem step_unit {t : Txn} {st : Status} {as : List Status} (hb : s.port.bus = some t) (ha : s.port.answers = st :: as) :
    step s = if deliverable t st then .next s.run else .refused .unitWithoutMeaning := by
  simp only [step, fetch, hb, ha]

/-- The block waits for the transport (R240). -/
theorem step_held {t : Txn} (hb : s.port.bus = some t) (ha : s.port.answers = []) : step s = .next s := by
  simp only [step, fetch, hb, ha]

/-- An idle block without a request does nothing (R230). -/
theorem step_noRequest (hb : s.port.bus = none) (hi : s.seq.busy = false) (hq : s.port.req = []) : step s = .next s := by
  simp only [step, fetch, hb, hi, hq, fetchRequest]

theorem step_request (hb : s.port.bus = none) (hi : s.seq.busy = false) {i : Instr} {rest : List Word}
    (hd : decodeRequest s.port.req = .ok (i, rest)) : step s = exec i (s.setReq rest) := by
  cases hq : s.port.req with
  | nil =>
    rw [hq] at hd
    cases hd
  | cons w ws =>
    rw [hq] at hd
    simp only [step, fetch, hb, hi, hq, fetchRequest, hd]

theorem step_textHeader (hb : s.port.bus = none) (hi : s.seq.busy = false) {w : Word} {rest : List Word}
    (hq : s.port.req = w :: rest) {e : DecodeError} (hd : decodeRequest (w :: rest) = .error e) :
    step s = .next ((s.setReq rest).acceptTextHeader w) := by
  simp only [step, fetch, hb, hi, hq, fetchRequest, hd]

theorem step_resume (hb : s.port.bus = none) (hi : s.seq.busy = true) {op : OpLatch} (ho : s.seq.op = some op)
    (hw : s.seq.want = 0) : step s = .next (s.advance op).run := by
  simp only [step, fetch, hb, hi, ho, if_pos hw]

theorem step_noCharacter (hb : s.port.bus = none) (hi : s.seq.busy = true) {op : OpLatch} (ho : s.seq.op = some op)
    (hw : s.seq.want ≠ 0) (hq : s.port.req = []) : step s = .next s := by
  simp only [step, fetch, hb, hi, ho, if_neg hw, hq, fetchCharacter]

theorem step_character (hb : s.port.bus = none) (hi : s.seq.busy = true) {op : OpLatch} (ho : s.seq.op = some op)
    (hw : s.seq.want ≠ 0) {w : Word} {rest : List Word} (hq : s.port.req = w :: rest) :
    step s = .next ((s.setReq rest).takeCharacter op (fieldX w)) := by
  simp only [step, fetch, hb, hi, ho, if_neg hw, hq, fetchCharacter, decodeCharacter, exec]
  exact execCharWord_awaited (s := s.setReq rest) hb hi ho hw _

/-- SEQ.op is read while it holds no value (R21). -/
theorem step_emptyLatch (hb : s.port.bus = none) (hi : s.seq.busy = true) (ho : s.seq.op = none) :
    step s = .fault .operationLatchEmpty := by
  simp only [step, fetch, hb, hi, ho]

end Fetch

/-- Everything a step can do: nothing; the outstanding transaction returns and the sequencer runs on; the operation in
progress presents its next transaction; an awaited character word is taken; an idle block performs the request on its
port; it accepts the request word of a DRAW_TEXT whose character words are not all there. -/
theorem step_cases {s t : State} (h : step s = .next t) :
    t = s ∨
    (∃ u st as, s.port.bus = some u ∧ s.port.answers = st :: as ∧ deliverable u st = true ∧ t = s.run) ∨
    (∃ op, s.port.bus = none ∧ s.seq.busy = true ∧ s.seq.op = some op ∧ s.seq.want = 0 ∧ t = (s.advance op).run) ∨
    (∃ op w rest, s.port.bus = none ∧ s.seq.busy = true ∧ s.seq.op = some op ∧ s.seq.want ≠ 0 ∧
      s.port.req = w :: rest ∧ t = (s.setReq rest).takeCharacter op (fieldX w)) ∨
    (∃ i op rest, s.idle = true ∧ decodeRequest s.port.req = .ok (i, rest) ∧ latchOf i = some op ∧
      t = (s.setReq rest).perform op) ∨
    (∃ w rest, s.idle = true ∧ s.port.req = w :: rest ∧ fieldCode w = 6 ∧ rest.length < (fieldCh w).toNat ∧
      t = (s.setReq rest).acceptTextHeader w) := by
  cases hb : s.port.bus with
  | some u =>
    cases ha : s.port.answers with
    | nil =>
      rw [step_held hb ha] at h
      cases h
      exact .inl rfl
    | cons st as =>
      rw [step_unit hb ha] at h
      split at h
      · cases h
        exact .inr (.inl ⟨u, st, as, rfl, rfl, ‹_›, rfl⟩)
      · cases h
  | none =>
    cases hi : s.seq.busy with
    | false =>
      have hidle := State.idle_iff.2 ⟨hi, hb⟩
      cases hq : s.port.req with
      | nil =>
        rw [step_noRequest hb hi hq] at h
        cases h
        exact .inl rfl
      | cons w ws =>
        cases hd : decodeRequest (w :: ws) with
        | error e =>
          rw [step_textHeader hb hi hq hd] at h
          cases h
          obtain ⟨h6, hl⟩ := decodeRequest_error hd
          exact .inr (.inr (.inr (.inr (.inr ⟨w, ws, hidle, rfl, h6, hl, rfl⟩))))
        | ok r =>
          obtain ⟨i, rest⟩ := r
          obtain ⟨op, ho⟩ := latchOf_decodeRequest hd
          rw [step_request hb hi (hq ▸ hd), exec_of_latchOf ho] at h
          cases h
          exact .inr (.inr (.inr (.inr (.inl ⟨i, op, rest, hidle, rfl, ho, rfl⟩))))
    | true =>
      cases ho : s.seq.op with
      | none =>
        rw [step_emptyLatch hb hi ho] at h
        cases h
      | some op =>
        by_cases hw : s.seq.want = 0
        · rw [step_resume hb hi ho hw] at h
          cases h
          exact .inr (.inr (.inl ⟨op, rfl, rfl, rfl, hw, rfl⟩))
        · cases hq : s.port.req with
          | nil =>
            rw [step_noCharacter hb hi ho hw hq] at h
            cases h
            exact .inl rfl
          | cons w ws =>
            rw [step_character hb hi ho hw hq] at h
            cases h
            exact .inr (.inr (.inr (.inl ⟨op, w, ws, rfl, rfl, rfl, hw, rfl, rfl⟩)))

end Sys2Proof.Machine
end

