-- ==== Sys2Proof/Tests/Slice0.lean ====
section
/-! SUPPORT. Tests of the model: the well-formedness smoke test, decodings of words written out from the spec's
encodings, single steps with results taken from 95_test_vectors.md, and for every statement with hypotheses a witness
that meets them. -/

namespace Sys2Proof.Tests

open Sys2Proof.Machine Sys2Proof.Statements

/-! ## States used below -/

/-- An idle block whose transport answers 0 `n` times; cursor (0, 0), surface without values. -/
def idleState (ready : Bool) (n : Nat) : State where
  seq := { ready := ready, busy := false, op := none, idx := 0, res := ⟨0, 0⟩, want := 0 }
  rx := { page := 0, col := 0, fb := [], cfg := 0 }
  port := { req := [], bus := none, answers := List.replicate n 0, done := false }
  m := { faults := Marks.none, hist := [], draws := 0 }

/-- The same block with other words on the request port. -/
def asked (ready : Bool) (n : Nat) (ws : List Word) : State := (idleState ready n).setReq ws

/-- The same block with the receiver's cursor elsewhere. -/
def cursorAt (ready : Bool) (n : Nat) (p : BitVec 3) (c : BitVec 7) : State :=
  let s := idleState ready n
  s.setRx { s.rx with page := p, col := c }

/-- A status that is not 0, of any width. -/
def bad : Status := BitVec.allOnes Config.statusW

theorem test_bad_ne_zero : bad ≠ 0 := by
  intro h
  have h2 := congrArg BitVec.toNat h
  have : 2 ^ 1 ≤ 2 ^ Config.statusW := Nat.pow_le_pow_right (by decide) (by simp [Config.statusW])
  simp only [bad, BitVec.toNat_allOnes] at h2
  change _ = 0 % _ at h2
  rw [Nat.zero_mod] at h2
  omega

/-- The next state of an outcome that has one. -/
def nextOf (o : Host.Outcome State Fault Refusal) : Option State :=
  match o with
  | .next t => some t
  | .fault _ | .refused _ => none

/-- The units of the records of a state. -/
def units (s : State) : List (Option (Byte × Byte)) := s.m.hist.map fun r => r.txn.unit

/-! ## Well-formedness -/

/-- A text of `n` letters. -/
def letters (n : Nat) : List Byte := List.replicate n 0x41
theorem letters_length (n : Nat) : (letters n).length = n := List.length_replicate
/-- The one check of `Instr.wf` refuses a text one character too long. -/
theorem test_wf_refuses_long_text : (Instr.drawText (letters 256) 0 0 false).wf = false := by
  simp only [Instr.wf, letters_length]
  decide
theorem test_wf_accepts_longest_text : (Instr.drawText (letters 255) 0 0 false).wf = true := by
  simp only [Instr.wf, letters_length]
  decide

/-! ## Decoding: words written out from 30_encoding.md (V-ENC and V-CH of 95_test_vectors.md) -/

theorem test_decode_initialise : decodeRequest [0b000_0000_0_00000000_00000000_00000000] = .ok (.initialise, []) := rfl
theorem test_decode_probe : decodeRequest [0b001_0000_0_00000000_00000000_00000000] = .ok (.probe, []) := rfl
theorem test_decode_setCursor :
    decodeRequest [0b010_0000_0_00000000_00000011_00000101] = .ok (.setCursor 5 3, []) := rfl
theorem test_decode_clearAll : decodeRequest [0b011_0000_0_00000000_00000000_00000000] = .ok (.clearAll, []) := rfl
theorem test_decode_fillAll : decodeRequest [0b100_0000_0_00000000_00000000_00000000] = .ok (.fillAll, []) := rfl
theorem test_decode_drawGlyph :
    decodeRequest [0b101_0000_1_01000001_00000000_00000000] = .ok (.drawGlyph 0x41 true, []) := rfl
theorem test_decode_drawText :
    decodeRequest [0b110_0000_0_00000010_00000010_00001010, 0x00000041, 0xFFFFFF42, 0x60000000] =
      .ok (.drawText [0x41, 0x42] 10 2 false, [0x60000000]) := rfl
theorem test_decode_drawBitmap :
    decodeRequest [0b111_0000_0_00000000_00000001_00101100] = .ok (.drawBitmap 44 1, []) := rfl
theorem test_decode_charWord : decode .character (.words [0b11111111_11111111_11111111_01000001]) = .ok (.charWord 0x41) := rfl
theorem test_decode_ignored_fields :
    [0x5E000305, 0x41FF0305, 0x1FFFFFFF, 0x3ABCDEF0, 0xFFFFFFFF, 0xA07A00FF, 0x6FFFFFFF, 0x9FFFFFFF].map
        (fun w : Word => (decodeRequest [w]).toOption.map Prod.fst) =
      [some (.setCursor 5 3), some (.setCursor 5 3), some .initialise, some .probe, some (.drawBitmap 255 255),
        some (.drawGlyph 0x7A false), some .clearAll, some .fillAll] := by decide
theorem test_decode_text_too_short : decodeRequest [0xC0020000, 0x41] = .error .missingCharacters := rfl

theorem test_decode_pageSel : decodeUnit .cursor 0x00 0b10110011 = .ok (.pageSel 3) := rfl
theorem test_decode_colLo : decodeUnit .cursor 0x00 0b00001111 = .ok (.colLo 15) := rfl
theorem test_decode_colHi : decodeUnit .cursor 0x00 0b00010111 = .ok (.colHi 7) := rfl
theorem test_decode_cfg : decodeUnit .initCfg 0x00 0b10110011 = .ok (.cfg 0xB3) := rfl
theorem test_decode_dataWr : decodeUnit .data 0x40 0b01111110 = .ok (.dataWr 0x7E) := rfl
theorem test_decode_prb : decode (.wire .probe) .probe = .ok .prb := rfl
theorem test_decode_cmd : decode .channel (.unit 0x00 0xB3) = .ok (.cmd 0xB3) := rfl
theorem test_decode_dat : decode .channel (.unit 0x40 0x00) = .ok (.dat 0x00) := rfl
theorem test_decode_rejects :
    ([0x20, 0xAF, 0xB8, 0xFF].all fun b : Byte => (decodeUnit .cursor 0x00 b).toOption.isNone) = true ∧
      decodeUnit .data 0x00 0x7E = .error .badControlByte ∧ decodeUnit .cursor 0x40 0xB3 = .error .badControlByte := by
  decide

/-- The numbering of the table: a request word; a unit with its control byte in bits 15 to 8; nothing. -/
theorem test_table_words :
    decodeTableWord 32 0x40000305 = some (.setCursor 5 3) ∧ decodeTableWord 16 0x00B3 = some (.pageSel 3) ∧
      decodeTableWord 16 0x407E = some (.dataWr 0x7E) ∧ decodeTableWord 16 0x00AE = some (.cfg 0xAE) ∧
      decodeTableWord 0 0 = some .prb := by decide

/-! ## Single instructions -/

/-- V-CUR-2: the units and the cursor. -/
theorem test_setCursor :
    (nextOf (exec (.setCursor 5 3) (idleState true 3))).map (fun t => (units t, t.rx.page, t.rx.col)) =
      some ([some (0x00, 0xB3), some (0x00, 0x05), some (0x00, 0x10)], 3, 5) := by decide
/-- V-CUR-7: column 128. -/
theorem test_setCursor_out_of_range :
    (nextOf (exec (.setCursor 128 0) (idleState true 3))).map (fun t => (units t, t.seq.res.kind, t.m.faults)) =
      some ([some (0x00, 0xB0), some (0x00, 0x00), some (0x00, 0x18)], 0, ⟨true, false, false⟩) := by decide
/-- V-PRB-1: a probe before initialisation. -/
theorem test_probe :
    (nextOf (exec .probe (idleState false 1))).map (fun t => (units t, t.seq, t.m.faults)) =
      some ([none], ⟨false, false, none, 1, ⟨0, 0⟩, 0⟩, Marks.none) := by decide
/-- V-PRB-3: the largest status comes back unchanged. -/
theorem test_probe_fails :
    (nextOf (exec .probe ((idleState true 0).setAnswers [bad]))).map (fun t => (t.seq.res, t.seq.ready)) =
      some (⟨1, bad⟩, true) := by
  have h := Between.run_fail (k := []) (l := []) (p := ⟨.probe, false⟩)
    (Between.accept (s := (idleState true 0).setAnswers [bad]) rfl (latch 1 0 0 0 false []) 0) test_bad_ne_zero []
  rw [exec_of_latchOf (i := .probe) rfl, State.perform_idle rfl]
  exact congrArg (fun t : State => some (t.seq.res, t.seq.ready)) h
/-- V-GLY-1: 'A' at (3, 5). -/
theorem test_drawGlyph :
    (nextOf (exec (.drawGlyph 0x41 false) (cursorAt true 7 3 5))).map
        (fun t => (t.rx.fb.map Prod.snd, t.rx.page, t.rx.col)) =
      some ([0x00, 0x7E, 0x11, 0x11, 0x11, 0x7E, 0x00], 3, 12) := by decide
/-- V-GLY-6: '{' has no glyph. -/
theorem test_drawGlyph_unsupported :
    (nextOf (exec (.drawGlyph 0x7B false) (idleState true 0))).map (fun t => (t.m.hist, t.seq.res)) =
      some ([], ⟨2, 0⟩) := by decide
/-- P5: "A~A" at (120, 0) stops before '~', the cursor behind the first 'A'. -/
theorem test_drawText_unsupported :
    (nextOf (exec (.drawText [0x41, 0x7E, 0x41] 120 0 false) (idleState true 10))).map
        (fun t => (t.seq.res, t.rx.page, t.rx.col)) = some (⟨2, 0⟩, 0, 127) := by decide
/-- V-BMP-7: the first cell of DRAW_BITMAP 250, 0; the transport answers its three cursor units. -/
theorem test_drawBitmap_first_cell :
    (nextOf (exec (.drawBitmap 250 0) (idleState true 3))).map (fun t => (units t, t.m.faults)) =
      some ([some (0x00, 0xB0), some (0x00, 0x0A), some (0x00, 0x1F)], ⟨true, false, false⟩) := by decide
/-- V-FILL-6: the first unit of a fill from (7, 127). -/
theorem test_fillAll_first_unit :
    (nextOf (exec .fillAll (cursorAt true 1 7 127))).map (fun t => (t.rx.fb, t.m.faults, t.seq.busy)) =
      some ([(1023, 0xFF)], Marks.none, true) := by decide
/-- V-FILL-5: the first unit of a fill before initialisation. -/
theorem test_clearAll_uninitialised :
    (nextOf (exec .clearAll (idleState false 1))).map (fun t => (units t, t.m.faults)) =
      some ([some (0x40, 0x00)], ⟨false, false, true⟩) := by decide
/-- V-INIT-5: L + 3 units. -/
theorem test_initialise_units : (expand (latch 0 0 0 0 false [])).length = Config.initLen + 3 := by
  simp [expand, latch, cursorUnits, Config.initLen]
/-- V-ENC-18: the one character of a text of length 1 starts the operation. -/
theorem test_charWord :
    (nextOf (exec (.charWord 0x41) ((idleState true 10).acceptTextHeader 0xC0010000))).map
        (fun t => (t.seq.res, t.rx.page, t.rx.col, t.seq.busy)) = some (⟨0, 0⟩, 0, 7, false) := by decide
/-- V-RX-4: the store at the last column of a page. -/
theorem test_dataWr_page_end :
    (nextOf (exec (.dataWr 0xAA) (cursorAt true 0 0 127))).map (fun t => (t.rx.fb, t.rx.page, t.rx.col)) =
      some ([(127, 0xAA)], 1, 0) := by decide
/-- V-RX-6: pixels of column 5, rows 24, 25, 30, 31. -/
theorem test_dataWr_pixels :
    (nextOf (exec (.dataWr 0x7E) (cursorAt true 0 3 5))).map
        (fun t => [t.pixel 5 24, t.pixel 5 25, t.pixel 5 30, t.pixel 5 31]) =
      some [some false, some true, some true, some false] := by decide
/-- V-RX-3. -/
theorem test_pageSel :
    (nextOf (exec (.pageSel 6) (cursorAt true 0 2 9))).map (fun t => (t.rx.page, t.rx.col)) = some (6, 9) := by decide
/-- R183: a page select before INITIALIZE, after a data unit sent too early. -/
theorem test_pageSel_after_early_data :
    (nextOf (exec (.pageSel 6) ((cursorAt false 0 2 9).setFaults ⟨false, false, true⟩))).map
      (fun t => (t.rx.page, t.rx.col)) = some (6, 9) := by decide
/-- V-RX-1. -/
theorem test_colLo :
    (nextOf (exec (.colLo 5) (cursorAt true 0 2 0x7A))).map (fun t => (t.rx.page, t.rx.col)) = some (2, 0x75) := by
  decide
/-- V-RX-2. -/
theorem test_colHi :
    (nextOf (exec (.colHi 7) (cursorAt true 0 2 0x05))).map (fun t => (t.rx.page, t.rx.col)) = some (2, 0x75) := by
  decide
/-- V-RX-7. -/
theorem test_colHi_out_of_range :
    (nextOf (exec (.colHi 8) (idleState true 0))).map (fun t => (t.m.faults, t.rx.page)) =
      some (⟨true, false, false⟩, 0) := by decide
/-- V-RX-8. -/
theorem test_cfg :
    (nextOf (exec (.cfg 0xAE) (idleState true 0))).map (fun t => (t.rx.fb, t.m.faults)) = some ([], Marks.none) := by
  decide
/-- V-RX-9. -/
theorem test_prb :
    (nextOf (exec .prb (idleState true 1))).map (fun t => (t.rx, units t)) = some ((idleState true 0).rx, [none]) := by
  decide
/-- V-CH-1. -/
theorem test_cmd :
    (nextOf (exec (.cmd 0xB3) (idleState true 1))).map (fun t => (units t, t.rx.page)) =
      some ([some (0x00, 0xB3)], 3) := by decide
/-- V-CH-2. -/
theorem test_dat :
    (nextOf (exec (.dat 0x7E) (idleState true 1))).map (fun t => (units t, t.rx.fb)) =
      some ([some (0x40, 0x7E)], [(0, 0x7E)]) := by decide
/-- R185: a command byte with no meaning at the receiver. -/
theorem test_cmd_without_meaning : exec (.cmd 0x20) (idleState true 1) = .refused .unitWithoutMeaning := rfl

/-! ## The step -/

theorem test_step_from_reset_request :
    (nextOf (step (State.reset.withFetchWord 32 0x4000077F))).map (fun t => (units t, t.rx.page, t.port.req)) =
      some ([some (0x00, 0xB7), some (0x00, 0x0F), some (0x00, 0x17)], 7, []) := by decide
theorem test_step_from_reset_unit :
    (nextOf (step (State.reset.withFetchWord 16 0x00B6))).map (fun t => (t.rx.page, t.port.bus)) = some (6, none) := by
  decide
theorem test_reset_is_idle : step State.reset = .next State.reset := rfl

/-! ## Witnesses: the hypotheses of every statement can be met -/

theorem test_witness_RequestFieldsStandAtTheirPlaces :
    (0x02 : Byte).toNat ≤ ([0x41, 0x42] : List Word).length ∧ (letters 255).length ≤ 255 :=
  ⟨by decide, Nat.le_of_eq (letters_length 255)⟩
theorem test_witness_DecodeOfEncodeIsTheInstruction :
    (Instr.drawText [0x41] 127 7 true).wf = true ∧ (Instr.drawText [0x41] 127 7 true).place = .request ∧
      encode (.drawText [0x41] 127 7 true) = .words [0xC101077F, 0x41] := by decide
theorem test_witness_DecodingIsTotalAndIgnoresUnusedBits_total :
    ([0x41, 0x42] : List Word).length = charactersAfter 0xC002020A ∧ ([] : List Word).length = charactersAfter 0x0 := by
  decide
theorem test_witness_DecodingIsTotalAndIgnoresUnusedBits_unused :
    (0x6FFFFFFF : Word) &&& usedBits (fieldCode 0x6FFFFFFF) = 0x60000000 &&& usedBits (fieldCode 0x6FFFFFFF) := by
  decide
/-- A canonical request, and V-ENC-18, which is not canonical. -/
theorem test_witness_DecodingIsTotalAndIgnoresUnusedBits_canonical :
    decodeRequest [0xC002020A, 0x41, 0x42] = .ok (.drawText [0x41, 0x42] 10 2 false, []) ∧
      (0xC002020A : Word) &&& usedBits (fieldCode 0xC002020A) = 0xC002020A ∧
      (∀ c ∈ ([0x41, 0x42] : List Word), c &&& 0xFF = c) ∧
      decodeRequest [0xC0010000, 0xFFFFFF41] = .ok (.drawText [0x41] 0 0 false, []) ∧
      (0xFFFFFF41 : Word) &&& 0xFF ≠ 0xFFFFFF41 :=
  ⟨rfl, by decide, by simp, rfl, by decide⟩
/-- The bytes where the classes of commands meet. -/
theorem test_witness_UnitsAreClassified :
    ([0x00, 0x0F, 0x10, 0x1F, 0xB0, 0xB7].map fun b : Byte => (decodeUnit .cursor 0x00 b).toOption) =
      [some (.colLo 0), some (.colLo 15), some (.colHi 0), some (.colHi 15), some (.pageSel 0), some (.pageSel 7)] ∧
      (0x40 : Byte) ≠ 0x00 := by decide
theorem test_witness_PositionBytes : pageByte 7 = 0xB7 ∧ pageByte 0 = 0xB0 ∧ 7 < 8 := by decide
theorem test_witness_GlyphIsSevenBytes :
    (32 ≤ (0x20 : Byte).toNat ∧ (0x20 : Byte).toNat ≤ 122) ∧ (32 ≤ (0x7A : Byte).toNat ∧ (0x7A : Byte).toNat ≤ 122) := by
  decide
theorem test_witness_ExpansionLengths : latchOf (.drawGlyph 0x20 true) = some (latch 5 0 0 0x20 true []) := rfl
theorem test_witness_TextIsCursorThenGlyphs :
    supported 0x7A = true ∧ ∀ d ∈ ([0x20, 0x41] : List Byte), supported d = true := by decide

theorem test_witness_StepRunsTheDecodedInstruction_request :
    (asked true 3 [0x40000305]).idle = true ∧
      decodeRequest (asked true 3 [0x40000305]).port.req = .ok (.setCursor 5 3, []) := by decide
/-- A DRAW_TEXT that waits for two characters, and the state after the first. -/
def waiting : State := (idleState true 17).acceptTextHeader 0xC002020A
theorem test_witness_StepRunsTheDecodedInstruction_character :
    let s := waiting.setReq [0x41]
    s.seq.busy = true ∧ s.seq.op = some (latch 6 10 2 0 false []) ∧ s.seq.want ≠ 0 ∧ s.port.bus = none ∧
      s.port.req = [0x41] := by decide
theorem test_witness_StepRunsTheDecodedInstruction_header :
    (asked true 0 [0xC0010000]).idle = true ∧ decodeRequest [0xC0010000] = .error .missingCharacters := by decide
/-- A block with a unit outstanding and an answer for it. -/
def onBus (t : Txn) (as : List Status) : State :=
  let s := (idleState true 0).setAnswers as
  { s with port := { s.port with bus := some t } }
theorem test_witness_StepRunsTheDecodedInstruction_unit :
    (onBus (.ofUnit 0x40 0x7E .data) [0]).port.bus = some (.ofUnit 0x40 0x7E .data) ∧
      (onBus (.ofUnit 0x40 0x7E .data) [0]).port.answers = [0] ∧ decodeUnit .data 0x40 0x7E = .ok (.dataWr 0x7E) :=
  ⟨rfl, rfl, rfl⟩
theorem test_witness_StepRunsTheDecodedInstruction_probe :
    (onBus .probe [bad]).port.bus = some .probe ∧ (onBus .probe [bad]).port.answers = [bad] := ⟨rfl, rfl⟩

/-- An idle block with as many zeros as any statement about a whole operation asks for. -/
theorem test_idleWithZeros (ready : Bool) (n : Nat) : IdleWithZeros (idleState ready n) n [] :=
  ⟨rfl, (List.append_nil _).symm⟩

theorem test_witness_OperationsComplete :
    latchOf .initialise = some (latch 0 0 0 0 false []) ∧
      IdleWithZeros (idleState false (expand (latch 0 0 0 0 false [])).length) (expand (latch 0 0 0 0 false [])).length [] :=
  ⟨rfl, test_idleWithZeros _ _⟩
/-- A failing probe, and a SET_CURSOR that fails at its third unit. -/
theorem test_witness_FirstFailureEndsTheOperation :
    (latchOf .probe = some (latch 1 0 0 0 false []) ∧ (expand (latch 1 0 0 0 false []))[0]? = some ⟨.probe, false⟩) ∧
      (latchOf (.setCursor 5 3) = some (latch 2 5 3 0 false []) ∧
        (expand (latch 2 5 3 0 false []))[2]? = some ⟨.command 0x10 .cursor, false⟩) ∧
      bad ≠ 0 ∧ ((idleState true 0).setAnswers [0, 0, bad]).idle = true ∧
      ((idleState true 0).setAnswers [0, 0, bad]).port.answers = List.replicate 2 0 ++ bad :: [] :=
  ⟨⟨rfl, rfl⟩, ⟨rfl, rfl⟩, test_bad_ne_zero, rfl, rfl⟩
theorem test_witness_SilentTransportHoldsTheBlock :
    latchOf (.setCursor 5 3) = some (latch 2 5 3 0 false []) ∧
      (expand (latch 2 5 3 0 false []))[2]? = some ⟨.command 0x10 .cursor, false⟩ ∧
      (idleState true 2).idle = true ∧ (idleState true 2).port.answers = List.replicate 2 0 ∧
      latchOf .probe = some (latch 1 0 0 0 false []) := ⟨rfl, rfl, rfl, rfl, rfl⟩
theorem test_witness_HeldOperationResumes :
    latchOf .probe = some (latch 1 0 0 0 false []) ∧ (idleState true 0).idle = true ∧
      ∃ t, exec .probe ((idleState true 0).setAnswers []) = .next t ∧ t.port.bus ≠ none :=
  ⟨rfl, rfl, _, rfl, Option.some_ne_none Txn.probe⟩
theorem test_witness_BusyBlockTakesNoRequest :
    latchOf .probe = some (latch 1 0 0 0 false []) ∧ waiting.seq.busy = true := ⟨rfl, rfl⟩

theorem test_witness_InitialiseMakesReady :
    IdleWithZeros (idleState false (Config.initLen + 3)) (Config.initLen + 3) [] ∧
      (idleState false (Config.initLen + 3)).Unmarked := ⟨test_idleWithZeros _ _, rfl⟩
theorem test_witness_InitialiseIsIdempotent :
    let s := idleState false (2 * (Config.initLen + 3))
    IdleWithZeros s (2 * (Config.initLen + 3)) [] ∧ s.Unmarked ∧
      ∃ t u, exec .initialise s = .next t ∧ exec .initialise t = .next u := ⟨test_idleWithZeros _ _, rfl, _, _, rfl, rfl⟩
theorem test_witness_ProbeReturnsTheStatus :
    ((idleState true 0).setAnswers [bad]).idle = true ∧ ((idleState true 0).setAnswers [bad]).port.answers = [bad] :=
  ⟨rfl, rfl⟩
theorem test_witness_SetCursorMovesTheCursor :
    IdleWithZeros (idleState true 3) 3 [] ∧ (idleState true 3).Unmarked ∧ (127 : Byte).toNat < 128 ∧
      (7 : Byte).toNat < 8 := ⟨test_idleWithZeros _ _, rfl, by decide, by decide⟩
theorem test_witness_SetCursorDoesNotCheckTheRange : IdleWithZeros (idleState true 3) 3 [] := test_idleWithZeros _ _
theorem test_witness_OutOfRangeMarkComesFirst :
    (idleState true 0).idle = true ∧ (128 ≤ (128 : Byte).toNat ∨ 8 ≤ (0 : Byte).toNat) ∧
      (128 ≤ (0 : Byte).toNat ∨ 8 ≤ (8 : Byte).toNat) ∧ ∃ t, exec (.setCursor 128 0) (idleState true 0) = .next t :=
  ⟨rfl, by decide, by decide, _, rfl⟩
theorem test_witness_FillCoversTheSurface :
    IdleWithZeros (idleState true 1024) 1024 [] ∧ (idleState true 1024).seq.ready = true ∧
      (idleState true 1024).Unmarked ∧ (idleState true 1024).CursorAt 0 := ⟨test_idleWithZeros _ _, rfl, rfl, rfl⟩
/-- The last position. -/
theorem test_witness_FillStartsAtTheCursor :
    let s := cursorAt true 1024 7 127
    IdleWithZeros s 1024 [] ∧ s.seq.ready = true ∧ s.Unmarked ∧ s.CursorAt 1023 :=
  ⟨test_idleWithZeros true 1024, rfl, rfl, rfl⟩
theorem test_witness_FillBeforeInitialiseIsMarked :
    IdleWithZeros (idleState false 1024) 1024 [] ∧ (idleState false 1024).seq.ready = false :=
  ⟨test_idleWithZeros _ _, rfl⟩
/-- The last place where a glyph fits (V-GLY-9). -/
theorem test_witness_DrawGlyphStoresSevenBytes :
    let s := cursorAt true 7 7 121
    IdleWithZeros s 7 [] ∧ s.seq.ready = true ∧ s.Unmarked ∧ 32 ≤ (0x7A : Byte).toNat ∧
      (0x7A : Byte).toNat ≤ 122 ∧ s.CursorAt 1017 ∧ 1017 + 7 ≤ 1024 :=
  ⟨test_idleWithZeros true 7, rfl, rfl, by decide, by decide, rfl, by decide⟩
theorem test_witness_UnsupportedGlyphIssuesNothing :
    (idleState true 0).idle = true ∧ ((31 : Byte).toNat < 32 ∨ 122 < (31 : Byte).toNat) ∧
      ((123 : Byte).toNat < 32 ∨ 122 < (123 : Byte).toNat) := by decide
/-- P5: "A~A"; the drawn part is "A", and the glyph may end at the last position. -/
theorem test_witness_DrawTextStoresItsGlyphs :
    (([0x41, 0x7E, 0x41] : List Byte).takeWhile fun c => 32 ≤ c.toNat && c.toNat ≤ 122) = [0x41] ∧
      IdleWithZeros (idleState true (3 + 7 * 1)) (3 + 7 * 1) [] ∧ (idleState true (3 + 7 * 1)).seq.ready = true ∧
      (idleState true (3 + 7 * 1)).Unmarked ∧ (121 : Byte).toNat < 128 ∧ (7 : Byte).toNat < 8 ∧
      128 * (7 : Byte).toNat + (121 : Byte).toNat + 7 * 1 ≤ 1024 :=
  ⟨by decide, test_idleWithZeros _ _, rfl, rfl, by decide, by decide, by decide⟩
/-- Operands out of range, and a text that runs past the last position. -/
theorem test_witness_DrawTextDoesNotCheckTheRange :
    (([0x41, 0x41] : List Byte).takeWhile fun c => 32 ≤ c.toNat && c.toNat ≤ 122) = [0x41, 0x41] ∧
      IdleWithZeros (idleState true (3 + 7 * 2)) (3 + 7 * 2) [] ∧ (idleState true (3 + 7 * 2)).seq.ready = true ∧
      (128 ≤ (128 : Byte).toNat ∨ 8 ≤ (7 : Byte).toNat) ∧ (128 ≤ (127 : Byte).toNat ∨ 8 ≤ (8 : Byte).toNat) ∧
      1024 < 128 * (7 : Byte).toNat + (127 : Byte).toNat + 7 * 2 :=
  ⟨by decide, test_idleWithZeros _ _, rfl, by decide, by decide, by decide⟩
/-- "A~" with the failure at the last unit of 'A', and one unit later. -/
theorem test_witness_BusFailureBeforeUnsupportedCharacter :
    (∀ d ∈ ([0x41] : List Byte), supported d = true) ∧ supported 0x7E = false ∧ bad ≠ 0 ∧
      (∀ n, ((idleState true 0).setAnswers (List.replicate n 0 ++ bad :: [])).idle = true ∧
        ((idleState true 0).setAnswers (List.replicate n 0 ++ bad :: [])).port.answers =
          List.replicate n 0 ++ bad :: []) ∧
      9 < 3 + 7 * ([0x41] : List Byte).length ∧ 3 + 7 * ([0x41] : List Byte).length ≤ 10 :=
  ⟨by decide, by decide, test_bad_ne_zero, fun _ => ⟨rfl, rfl⟩, by decide, by decide⟩
theorem test_witness_CharacterWordsMakeTheText :
    (idleState true 17).idle = true ∧ fieldCode 0xC002020A = 6 ∧ ([0x41, 0x42] : List Byte) ≠ [] ∧
      ([0x41, 0x42] : List Byte).length = (fieldCh 0xC002020A).toNat := by decide
theorem test_witness_CharacterWordsMakeTheText_empty : fieldCode 0xC1000000 = 6 ∧ fieldCh 0xC1000000 = 0 := by decide
theorem test_witness_CharacterWordIsTakenWhereItIsAwaited_more :
    waiting.seq.busy = true ∧ waiting.seq.op = some (latch 6 10 2 0 false []) ∧ 2 ≤ waiting.seq.want ∧
      waiting.port.bus = none := by decide
/-- A waiting block on which a probe was executed by itself and not answered. -/
theorem test_witness_CharacterWordIsTakenWhereItIsAwaited_outstanding :
    ∃ t, exec .prb (waiting.setAnswers []) = .next t ∧ t.seq.busy = true ∧ t.seq.want ≠ 0 ∧ t.port.bus ≠ none :=
  ⟨_, rfl, rfl, by decide, Option.some_ne_none Txn.probe⟩
theorem test_witness_CharacterWordIsTakenWhereItIsAwaited_last :
    let s := (idleState true 10).acceptTextHeader 0xC001020A
    s.seq.busy = true ∧ s.seq.op = some (latch 6 10 2 0 false []) ∧ s.seq.want = 1 ∧
      (latch 6 10 2 0 false []).code = 6 ∧ s.seq.idx = 0 ∧ s.port.bus = none ∧
      s.port.answers =
        List.replicate (expand { latch 6 10 2 0 false [] with text := (latch 6 10 2 0 false []).text ++ [0x41] }).length 0
          ++ [] := by decide
theorem test_witness_CharacterWordIsTakenWhereItIsAwaited_busy :
    ((idleState true 0).accept (latch 1 0 0 0 false []) 0).seq.busy = true ∧
      ((idleState true 0).accept (latch 1 0 0 0 false []) 0).seq.want = 0 ∧ (idleState true 0).seq.busy = false := by
  decide
/-- The last columns without and with a wrap at their last rows, and both sides of column 88. -/
theorem test_witness_DrawBitmapPaintsItsCells :
    IdleWithZeros (idleState true 275) 275 [] ∧ (idleState true 275).seq.ready = true ∧ (idleState true 275).Unmarked ∧
      (∀ p ∈ [((88, 3) : Byte × Byte), (95, 2), (87, 3), (88, 2)],
        p.1.toNat ≤ 95 ∧ p.2.toNat ≤ 3 ∧ (p.1.toNat ≤ 88 ∨ p.2.toNat ≤ 2)) ∧
      (87 : Byte).toNat ≤ 87 ∧ 88 ≤ (88 : Byte).toNat ∧ (2 : Byte).toNat ≤ 2 :=
  ⟨test_idleWithZeros _ _, rfl, rfl, by simp, by decide, by decide, by decide⟩
theorem test_witness_DrawBitmapSendsRasterOrder : IdleWithZeros (idleState false 275) 275 [] := test_idleWithZeros _ _
theorem test_witness_DrawBitmapMarksOutOfRangeCells :
    IdleWithZeros (idleState true 275) 275 [] ∧ (idleState true 275).seq.ready = true := ⟨test_idleWithZeros _ _, rfl⟩

theorem test_witness_WireUnitsTouchOnlyTheReceiver :
    (Instr.pageSel 7).place = .wire .cursor ∧ (Instr.cfg 0xAE).place = .wire .initCfg ∧
      (Instr.dataWr 0x00).place = .wire .data := by decide
/-- A display whose state is known: the premise of the register rules. -/
theorem test_witness_PageSelSetsThePage : (idleState false 0).Unmarked := rfl
theorem test_witness_ColLoSetsTheLowNibble : (cursorAt false 0 2 0x7A).Unmarked := rfl
theorem test_witness_ColHiSetsTheHighBits :
    (idleState false 0).Unmarked ∧ (7 : BitVec 4).toNat ≤ 7 ∧ 8 ≤ (8 : BitVec 4).toNat := by decide
theorem test_witness_CursorCommandsNameThePosition :
    (idleState false 0).Unmarked ∧ (7 : BitVec 4).toNat ≤ 7 := by decide
theorem test_witness_DataUnitStoresAndAdvances :
    (cursorAt true 0 6 127).Unmarked ∧ (cursorAt true 0 6 127).seq.ready = true ∧
      (cursorAt true 0 6 127).rx.col.toNat = 127 ∧ (cursorAt true 0 6 127).rx.page.toNat < 7 ∧
      (cursorAt true 0 7 126).rx.col.toNat < 127 := by decide
theorem test_witness_DataUnitDrawsEightPixels :
    (cursorAt true 0 7 127).Unmarked ∧ (cursorAt true 0 7 127).seq.ready = true ∧
      ∃ t, exec (.dataWr 0x55) (cursorAt true 0 7 127) = .next t := ⟨rfl, rfl, _, rfl⟩
/-- An Uninitialized block, and one that has sent a data unit already. -/
def earlyData (n : Nat) : State := (idleState false n).setFaults ⟨false, false, true⟩
theorem test_witness_DataBeforeInitialiseIsMarked :
    ∀ s ∈ [idleState false 0, earlyData 0],
      s.m.faults.cursorOutOfRange = false ∧ s.m.faults.busFailure = false ∧ s.seq.ready = false := by decide
theorem test_witness_CursorUnitsBeforeInitialise :
    (∀ s ∈ [idleState false 0, earlyData 0],
      s.m.faults.cursorOutOfRange = false ∧ s.m.faults.busFailure = false ∧ s.seq.ready = false) ∧
      (7 : BitVec 4).toNat ≤ 7 := by decide
theorem test_witness_InitialiseAfterEarlyData :
    IdleWithZeros (earlyData (Config.initLen + 3)) (Config.initLen + 3) [] ∧
      (earlyData (Config.initLen + 3)).m.faults = { Marks.none with dataBeforeInit := true } ∧
      (earlyData (Config.initLen + 3)).seq.ready = false := ⟨test_idleWithZeros false _, rfl, rfl⟩
theorem test_witness_ConfigurationKeepsTheSurface : (idleState false 0).Unmarked := rfl
/-- V-RX-11, and the last position. -/
theorem test_witness_StreamOfDataUnits :
    (cursorAt true 0 5 100).seq.ready = true ∧ (cursorAt true 0 5 100).Unmarked ∧
      (cursorAt true 0 5 100).CursorAt 740 ∧ 740 + (letters 40).length ≤ 1024 ∧
      740 + (letters 40).length < 1024 ∧ 740 + (letters 284).length ≤ 1024 :=
  ⟨rfl, rfl, rfl, by rw [letters_length]; decide, by rw [letters_length]; decide, by rw [letters_length]⟩
theorem test_witness_CmdPerformsOneWrite :
    (idleState true 1).port.bus = none ∧ (idleState true 1).port.answers = 0 :: [] ∧
      decodeUnit (cmdOrigin (idleState true 1)) 0x00 0xB7 = .ok (.pageSel 7) ∧
      (decodeUnit (cmdOrigin (idleState true 1)) 0x00 0xB8).isOk = false ∧
      (idleState true 1).Unmarked := by decide
theorem test_witness_CmdPerformsOneWrite_failed :
    ((idleState true 0).setAnswers [bad]).port.bus = none ∧ ((idleState true 0).setAnswers [bad]).port.answers = bad :: [] ∧
      bad ≠ 0 ∧ ((idleState true 0).setAnswers [bad]).Unmarked := ⟨rfl, rfl, test_bad_ne_zero, rfl⟩
/-- A ready and an uninitialised display, delivered and failed, and a marked one. -/
theorem test_witness_DatPerformsOneWrite :
    (∀ ready : Bool, (idleState ready 1).port.bus = none ∧ (idleState ready 1).port.answers = 0 :: [] ∧
      (idleState ready 1).seq.ready = ready ∧ (idleState ready 1).Unmarked) ∧
    (∀ ready : Bool, ((idleState ready 0).setAnswers [bad]).port.bus = none ∧
      ((idleState ready 0).setAnswers [bad]).port.answers = bad :: [] ∧
      ((idleState ready 0).setAnswers [bad]).Unmarked) ∧ bad ≠ 0 ∧
    ((idleState true 1).setFaults ⟨false, true, false⟩).port.answers = 0 :: [] :=
  ⟨fun _ => ⟨rfl, rfl, rfl, rfl⟩, fun _ => ⟨rfl, rfl, rfl⟩, test_bad_ne_zero, rfl⟩
theorem test_witness_PrbChangesNothingInTheReceiver :
    ((idleState true 0).setAnswers [bad]).port.bus = none ∧
      ((idleState true 0).setAnswers [bad]).port.answers = bad :: [] := ⟨rfl, rfl⟩
theorem test_witness_OneTransactionAtATime :
    (Instr.prb, Txn.probe) ∈ [(Instr.prb, Txn.probe)] ∧ (idleState true 0).port.bus = none ∧
      (idleState true 0).port.answers = [] ∧ (onBus .probe []).port.bus ≠ none :=
  ⟨List.mem_singleton.2 rfl, rfl, rfl, Option.some_ne_none Txn.probe⟩

/-! ## Witnesses for the invariants -/

theorem test_witness_StepKeepsMemoryCanonical :
    (cursorAt true 0 7 127).rx.fb.wf ∧ ∃ t, step (cursorAt true 0 7 127) = .next t :=
  ⟨⟨List.Pairwise.nil, fun _ h => absurd h List.not_mem_nil⟩, _, rfl⟩
theorem test_witness_StepKeepsTheResultRule :
    (asked true 3 [0x40000305]).seq.res.wf = true ∧ ∃ t, step (asked true 3 [0x40000305]) = .next t :=
  ⟨by decide, _, rfl⟩
theorem test_witness_StepOnlyAdds :
    (asked true 3 [0x40000305]).seq.ready = true ∧ ∃ t, step (asked true 3 [0x40000305]) = .next t := ⟨rfl, _, rfl⟩
/-- Idle, waiting for a character, and with a transaction outstanding. -/
theorem test_witness_StepKeepsTheSequencerConsistent :
    (asked true 3 [0x40000305]).consistent = true ∧ (waiting.setReq [0x41]).consistent = true ∧
      ((idleState true 0).perform (latch 1 0 0 0 false [])).consistent = true ∧
      ∃ t, step (asked true 3 [0x40000305]) = .next t :=
  ⟨by decide, by decide, decide_eq_true (rfl : some Txn.probe = some Txn.probe), _, rfl⟩
theorem test_witness_BlockIssuesOnlyLegalTransactions :
    OnlyLegal (onBus .probe [0]) ∧ ∃ t, step (onBus .probe [0]) = .next t :=
  ⟨⟨fun _ h => absurd h List.not_mem_nil, fun t h => by cases h; exact legal_probe⟩, _, rfl⟩
theorem test_witness_ConsistentMachineNeverStops : (waiting.setReq [0x41]).consistent = true := by decide
/-- An INITIALIZE requested of an Uninitialized block. -/
theorem test_witness_OnlyInitialiseMakesReady :
    let s := asked false (Config.initLen + 3) [0x00000000]
    s.consistent = true ∧ s.seq.ready = false ∧ ∃ t, step s = .next t ∧ t.seq.ready = true := by
  refine ⟨rfl, rfl, _, (step_request rfl rfl rfl).trans (exec_of_latchOf (i := .initialise) rfl _), ?_⟩
  have hn : (expand (latch 0 0 0 0 false [])).length = Config.initLen + 3 := test_initialise_units
  rw [State.perform_done rfl hn (List.append_nil _).symm, State.done_seq]
  rfl
theorem test_witness_SequencerIgnoresTheReceiver :
    SameSequencer (cursorAt true 0 7 127) (idleState true 0) ∧ cursorAt true 0 7 127 ≠ idleState true 0 ∧
      ∃ t, step (cursorAt true 0 7 127) = .next t := ⟨⟨rfl, rfl, rfl⟩, by decide, _, rfl⟩

end Sys2Proof.Tests
end

section
/-! PROOF. Which transactions the block issues (00_scope.md, R8, R98): the engine presents only entries of expansions,
all of them legal, and records only what was on the port; so every operation of the engine keeps `OnlyLegal`. -/

namespace Sys2Proof.Statements

open Sys2Proof.Machine

namespace OnlyLegal

variable {s t : State}

/-- `OnlyLegal` speaks of the history and of the outstanding transaction alone. -/
theorem of_hist_bus_eq (h : OnlyLegal s) (hhist : t.m.hist = s.m.hist) (hbus : t.port.bus = s.port.bus) :
    OnlyLegal t := by
  rwa [OnlyLegal, hhist, hbus]

theorem setAnswers (h : OnlyLegal s) (as : List Status) : OnlyLegal (s.setAnswers as) := h.of_hist_bus_eq rfl rfl

theorem setReq (h : OnlyLegal s) (ws : List Word) : OnlyLegal (s.setReq ws) := h.of_hist_bus_eq rfl rfl

theorem accept (h : OnlyLegal s) (op : OpLatch) (n : Nat) : OnlyLegal (s.accept op n) := h.of_hist_bus_eq rfl rfl

theorem withSeq (h : OnlyLegal s) (q : Seq) : OnlyLegal { s with seq := q } := h.of_hist_bus_eq rfl rfl

theorem countUnit (h : OnlyLegal s) : OnlyLegal s.countUnit := h.withSeq _

theorem raise (h : OnlyLegal s) (r : Result) : OnlyLegal (s.raise r) := h.of_hist_bus_eq rfl rfl

theorem complete (h : OnlyLegal s) (op : OpLatch) : OnlyLegal (s.complete op) :=
  h.of_hist_bus_eq (by simp) (by simp)

theorem present (h : OnlyLegal s) {p : Planned} (hp : p.txn.legal = true) : OnlyLegal (s.present p) := by
  obtain ⟨hhist, -⟩ := h
  refine ⟨by simpa using hhist, fun u hu => ?_⟩
  rw [State.present_bus] at hu
  cases hu
  exact hp

/-- A settled transaction moves from the port to the history (R113). -/
theorem settle (h : OnlyLegal s) {u : Txn} (hu : s.port.bus = some u) (st : Status) : OnlyLegal (s.settle u st) := by
  obtain ⟨hhist, hbus⟩ := h
  refine ⟨fun r hr => ?_, by simp⟩
  rw [State.settle_hist] at hr
  rcases List.mem_append.1 hr with hr | hr
  · exact hhist r hr
  · cases List.mem_singleton.1 hr
    exact hbus u hu

/-- What the operation in progress presents is an entry of its expansion, and those are legal (R93, R98). -/
theorem advance (h : OnlyLegal s) (op : OpLatch) : OnlyLegal (s.advance op) := by
  unfold State.advance
  split
  · next hp => exact h.present (legal_of_mem_expand (List.mem_of_getElem? hp))
  · exact h.complete op

theorem proceed (h : OnlyLegal s) (st : Status) : OnlyLegal (s.proceed st) := by
  unfold State.proceed
  split
  · split
    · split
      · exact h.countUnit.advance _
      · exact h.raise _
    · exact h
  · exact h

theorem runOn (h : OnlyLegal s) (as : List Status) : OnlyLegal (s.runOn as) :=
  State.runOn_induction OnlyLegal (fun _ _ st hu h => (h.settle hu st).proceed st) (fun _ as h => h.setAnswers as) s as h

theorem run (h : OnlyLegal s) : OnlyLegal s.run := h.runOn _

theorem perform (h : OnlyLegal s) (op : OpLatch) : OnlyLegal (s.perform op) := by
  unfold State.perform
  split
  · exact ((h.accept op 0).advance op).run
  · exact h

theorem takeCharacter (h : OnlyLegal s) (op : OpLatch) (c : Byte) : OnlyLegal (s.takeCharacter op c) := by
  dsimp only [State.takeCharacter]
  split
  · exact ((h.withSeq _).advance _).run
  · exact h.withSeq _

theorem step (h : OnlyLegal s) (hstep : step s = .next t) : OnlyLegal t := by
  rcases step_cases hstep with rfl | ⟨_, _, _, -, -, -, rfl⟩ | ⟨op, -, -, -, -, rfl⟩ |
    ⟨op, w, rest, -, -, -, -, -, rfl⟩ | ⟨_, op, rest, -, -, -, rfl⟩ | ⟨w, rest, -, -, -, -, rfl⟩
  · exact h
  · exact h.run
  · exact (h.advance op).run
  · exact (h.setReq rest).takeCharacter op _
  · exact (h.setReq rest).perform op
  · exact (h.setReq rest).accept _ _

end OnlyLegal

/-- Settles O53: `OnlyLegal` is kept by every branch of `step_cases`, because each is made of engine operations that
keep it. -/
theorem blockIssuesOnlyLegalTransactions : Obligations.BlockIssuesOnlyLegalTransactions := by
  intro s t h hstep
  exact h.step hstep

end Sys2Proof.Statements
end

section
/-! PROOF. What every step keeps, said once for a relation (`EngineClosed`): a step is a chain of the engine's
operations (`step_cases`), so a reflexive and transitive relation that each of them keeps holds from a state to its next
state. With it: a step only adds (R22, R31, R34), and the result register keeps its rule (R25). -/

namespace Sys2Proof.Machine

/-- A relation from a state to a later one that is reflexive, transitive and kept by each operation a step is made of. -/
structure EngineClosed (R : State → State → Prop) : Prop where
  refl : ∀ s, R s s
  trans : ∀ {s t u}, R s t → R t u → R s u
  setAnswers : ∀ s as, R s (s.setAnswers as)
  setReq : ∀ s ws, R s (s.setReq ws)
  accept : ∀ s op n, R s (s.accept op n)
  /-- A character word taken into the latch (R84). -/
  relatch : ∀ (s : State) op n, R s { s with seq := { s.seq with op := op, want := n } }
  present : ∀ s p, R s (s.present p)
  settle : ∀ s u st, R s (s.settle u st)
  countUnit : ∀ s, R s s.countUnit
  complete : ∀ s op, R s (s.complete op)
  /-- The end at the first non-zero status (R201). -/
  fail : ∀ s st, st ≠ 0 → R s (s.raise (.busFailure st))

namespace EngineClosed

variable {R : State → State → Prop} (h : EngineClosed R)
include h

theorem advance (s : State) (op : OpLatch) : R s (s.advance op) := by
  unfold State.advance
  split
  · exact h.present s _
  · exact h.complete s op

theorem proceed (s : State) (st : Status) : R s (s.proceed st) := by
  unfold State.proceed
  split
  · split
    · split
      · exact h.trans (h.countUnit s) (h.advance _ _)
      · exact h.fail s st ‹_›
    · exact h.refl s
  · exact h.refl s

theorem runOn (s : State) (as : List Status) : R s (s.runOn as) :=
  State.runOn_induction (R s) (fun _ _ _ _ hr => h.trans hr (h.trans (h.settle _ _ _) (h.proceed _ _)))
    (fun _ _ hr => h.trans hr (h.setAnswers _ _)) s as (h.refl s)

theorem run (s : State) : R s s.run := h.runOn s _

theorem advance_run (s : State) (op : OpLatch) : R s (s.advance op).run := h.trans (h.advance s op) (h.run _)

theorem perform (s : State) (op : OpLatch) : R s (s.perform op) := by
  unfold State.perform
  split
  · exact h.trans (h.accept s op 0) (h.advance_run _ op)
  · exact h.refl s

theorem takeCharacter (s : State) (op : OpLatch) (c : Byte) : R s (s.takeCharacter op c) := by
  dsimp only [State.takeCharacter]
  split
  · exact h.trans (h.relatch s _ _) (h.advance_run _ _)
  · exact h.relatch s _ _

theorem step {s t : State} (hstep : step s = .next t) : R s t := by
  rcases step_cases hstep with rfl | ⟨_, _, _, -, -, -, rfl⟩ | ⟨op, -, -, -, -, rfl⟩ |
    ⟨op, w, rest, -, -, -, -, -, rfl⟩ | ⟨_, op, rest, -, -, -, rfl⟩ | ⟨w, rest, -, -, -, -, rfl⟩
  · exact h.refl t
  · exact h.run s
  · exact h.advance_run s op
  · exact h.trans (h.setReq s rest) (h.takeCharacter _ op _)
  · exact h.trans (h.setReq s rest) (h.perform _ op)
  · exact h.trans (h.setReq s rest) (h.accept _ _ _)

end EngineClosed

/-! ## A step only adds (R22, R31, R34) -/

/-- From `s` to `t` nothing is taken back: `ready` stays set, marks stay, and the history goes on. -/
structure OnlyAdds (s t : State) : Prop where
  ready : s.seq.ready = true → t.seq.ready = true
  faults : s.m.faults.le t.m.faults
  hist : s.m.hist <+: t.m.hist

namespace OnlyAdds

theorem trans {s t u : State} (a : OnlyAdds s t) (b : OnlyAdds t u) : OnlyAdds s u :=
  ⟨b.ready ∘ a.ready, Marks.le_trans a.faults b.faults, a.hist.trans b.hist⟩

/-- The operations that leave the bookkeeping alone. -/
theorem of_m_eq {s t : State} (hready : s.seq.ready = true → t.seq.ready = true) (hm : t.m = s.m) : OnlyAdds s t :=
  ⟨hready, hm ▸ Marks.le_refl _, [], by simp [hm]⟩

theorem present (s : State) (p : Planned) : OnlyAdds s (s.present p) where
  ready := by simp
  faults := by
    rw [State.present_faults]
    split
    · exact Marks.le_addCursorOutOfRange _
    · exact Marks.le_refl _
  hist := by simp

theorem settle (s : State) (u : Txn) (st : Status) : OnlyAdds s (s.settle u st) where
  ready := by simp
  faults := s.settle_faults u st
  hist := by simp

theorem complete (s : State) (op : OpLatch) : OnlyAdds s (s.complete op) :=
  of_m_eq (fun hr => by simp [State.complete_seq, hr]) (s.complete_m op)

theorem engineClosed : EngineClosed OnlyAdds where
  refl _ := of_m_eq id rfl
  trans := trans
  setAnswers _ _ := of_m_eq id rfl
  setReq _ _ := of_m_eq id rfl
  accept _ _ _ := of_m_eq id rfl
  relatch _ _ _ := of_m_eq id rfl
  present := present
  settle := settle
  countUnit _ := of_m_eq id rfl
  complete := complete
  fail _ _ _ := of_m_eq id rfl

end OnlyAdds

/-! ## The rule of the result register (R25) -/

theorem Result.busFailure_wf {st : Status} (h : st ≠ 0) : (Result.busFailure st).wf = true := by
  simpa [Result.wf, Result.busFailure, kindBusFailure] using h

theorem Result.ok_wf : Result.ok.wf = true := by
  simp [Result.wf, Result.ok, kindOk, kindBusFailure]

theorem Result.unsupported_wf : Result.unsupported.wf = true := by
  simp [Result.wf, Result.unsupported, kindUnsupported, kindBusFailure]

theorem resultOf_wf (op : OpLatch) : (resultOf op).wf = true := by
  unfold resultOf
  split
  · exact Result.unsupported_wf
  · exact Result.ok_wf

/-- Only the end of an operation writes the result register, and every result it writes meets the rule. -/
theorem EngineClosed.result_wf : EngineClosed fun s t => s.seq.res.wf = true → t.seq.res.wf = true where
  refl _ := id
  trans a b := b ∘ a
  setAnswers _ _ := id
  setReq _ _ := id
  accept _ _ _ := id
  relatch _ _ _ := id
  present s p := by simp
  settle s u st := by simp
  countUnit _ := id
  complete s op _ := by rw [State.complete_seq]; exact resultOf_wf op
  fail _ _ hst _ := Result.busFailure_wf hst

end Sys2Proof.Machine

namespace Sys2Proof.Statements

open Sys2Proof.Machine

/-- Settles O51: `OnlyAdds` holds across every operation of the engine, so across a step. -/
theorem stepOnlyAdds : Obligations.StepOnlyAdds := by
  intro s t hstep
  obtain ⟨hready, hfaults, new, hhist⟩ := OnlyAdds.engineClosed.step hstep
  exact ⟨hready, hfaults, new, hhist.symm⟩

/-- Settles O50: a step writes the result register only at the end of an operation, with a result that meets R25. -/
theorem stepKeepsTheResultRule : Obligations.StepKeepsTheResultRule := by
  intro s t hwf hstep
  exact EngineClosed.result_wf.step hstep hwf

end Sys2Proof.Statements
end

section
/-! PROOF. The situations of the sequencer (R21 to R24, R36, R84): `State.consistent` said as one of three structures,
each kept or left for another one by the engine's operations. -/

namespace Sys2Proof.Machine

/-- No operation is in progress, and nothing is outstanding. -/
structure AtRest (s : State) : Prop where
  busy : s.seq.busy = false
  latched : s.seq.op = none
  bus : s.port.bus = none
  want : s.seq.want = 0

/-- The block waits for the character words of a DRAW_TEXT (R84). -/
structure AwaitsCharacters (s : State) (op : OpLatch) : Prop where
  busy : s.seq.busy = true
  latched : s.seq.op = some op
  bus : s.port.bus = none
  want : s.seq.want ≠ 0
  code : op.code = 6
  idx : s.seq.idx = 0
  length : op.text.length + s.seq.want ≤ 255

/-- The entry `p` of the expansion of `op` is outstanding (R24). -/
structure Presents (s : State) (op : OpLatch) (p : Planned) : Prop where
  busy : s.seq.busy = true
  latched : s.seq.op = some op
  bus : s.port.bus = some p.txn
  want : s.seq.want = 0
  entry : (expand op)[s.seq.idx]? = some p

section
variable {s : State} {op : OpLatch} {p : Planned}

theorem AtRest.consistent (h : AtRest s) : s.consistent = true := by
  simp [State.consistent, h.busy, h.latched, h.bus, h.want]

theorem AwaitsCharacters.consistent (h : AwaitsCharacters s op) : s.consistent = true := by
  simp [State.consistent, h.busy, h.latched, h.bus, h.want, h.code, h.idx, h.length]

theorem Presents.consistent (h : Presents s op p) : s.consistent = true := by
  simp [State.consistent, h.busy, h.latched, h.bus, h.want, h.entry]

/-- There is no fourth situation. -/
theorem State.consistent_cases (h : s.consistent = true) :
    AtRest s ∨ (∃ op, AwaitsCharacters s op) ∨ ∃ op p, Presents s op p := by
  unfold State.consistent at h
  split at h
  · next hbusy hop =>
    simp only [Bool.and_eq_true, decide_eq_true_eq, Option.isNone_iff_eq_none] at h
    obtain ⟨hbus, hwant⟩ := h
    exact .inl ⟨hbusy, hop, hbus, hwant⟩
  · cases h
  · cases h
  · next op hbusy hop =>
    split at h
    · next hwant =>
      simp only [Bool.and_eq_true, decide_eq_true_eq, Option.isSome_iff_exists] at h
      obtain ⟨⟨u, hbus⟩, hentry⟩ := h
      obtain ⟨p, hp, rfl⟩ := Option.map_eq_some_iff.1 (hentry.trans hbus)
      exact .inr (.inr ⟨op, p, hbusy, hop, hbus, hwant, hp⟩)
    · next hwant =>
      simp only [Bool.and_eq_true, decide_eq_true_eq, Option.isNone_iff_eq_none] at h
      obtain ⟨⟨⟨hcode, hbus⟩, hidx⟩, hlength⟩ := h
      exact .inr (.inl ⟨op, hbusy, hop, hbus, hwant, hcode, hidx, hlength⟩)

/-- A consistent state with a transaction outstanding presents an entry of its operation. -/
theorem State.presents_of_bus (h : s.consistent = true) {u : Txn} (hu : s.port.bus = some u) :
    ∃ op p, Presents s op p := by
  rcases State.consistent_cases h with hr | ⟨op, hw⟩ | hp
  · simp [hr.bus] at hu
  · simp [hw.bus] at hu
  · exact hp

/-- A consistent state that waits for characters does so for a DRAW_TEXT. -/
theorem State.awaits_of_want (h : s.consistent = true) (hop : s.seq.op = some op) (hwant : s.seq.want ≠ 0) :
    AwaitsCharacters s op := by
  rcases State.consistent_cases h with hr | ⟨op', hw⟩ | ⟨op', p, hp⟩
  · exact absurd hr.want hwant
  · cases hop.symm.trans hw.latched
    exact hw
  · exact absurd hp.want hwant

/-- An operation that ends leaves the block at rest, when nothing is outstanding (R200, R207). -/
theorem atRest_raise (hbus : s.port.bus = none) (r : Result) : AtRest (s.raise r) := ⟨rfl, rfl, hbus, rfl⟩

theorem atRest_complete (hbus : s.port.bus = none) (op : OpLatch) : AtRest (s.complete op) where
  busy := by simp [State.complete_seq]
  latched := by simp [State.complete_seq]
  bus := by simpa using hbus
  want := by simp [State.complete_seq]

/-- An operation in progress with nothing outstanding presents the entry that stands at `idx`, or ends (R24, R114). -/
theorem State.advance_consistent (hbusy : s.seq.busy = true) (hop : s.seq.op = some op) (hbus : s.port.bus = none)
    (hwant : s.seq.want = 0) : (s.advance op).consistent = true := by
  unfold State.advance
  split
  · next p hp =>
    have : Presents (s.present p) op p :=
      ⟨by simpa using hbusy, by simpa using hop, by simp, by simpa using hwant, by simpa using hp⟩
    exact this.consistent
  · exact (atRest_complete hbus op).consistent

/-- A transaction that returns leads to the next one or to the end of the operation (R113, R114). -/
theorem Presents.transact_consistent (h : Presents s op p) (u : Txn) (st : Status) :
    ((s.settle u st).proceed st).consistent = true := by
  simp only [State.proceed, State.settle_seq, h.busy, h.latched, if_true]
  split
  · exact State.advance_consistent (by simp [h.busy]) (by simp [h.latched]) (by simp) (by simp [h.want])
  · exact (atRest_raise (by simp) _).consistent

theorem State.run_consistent (h : s.consistent = true) : s.run.consistent = true := by
  refine State.runOn_induction (fun s => s.consistent = true) (fun s u st hu h => ?_) (fun _ _ h => h) s _ h
  obtain ⟨op, p, hp⟩ := State.presents_of_bus h hu
  exact hp.transact_consistent u st

/-- A request that an idle block accepts starts its operation (R23, R24). -/
theorem State.perform_consistent (hidle : s.idle = true) (op : OpLatch) : (s.perform op).consistent = true := by
  obtain ⟨-, hbus⟩ := State.idle_iff.1 hidle
  rw [State.perform, if_pos hidle]
  exact State.run_consistent (State.advance_consistent rfl rfl hbus rfl)

/-- The last awaited character starts the operation; after another one the block goes on waiting (R84). -/
theorem AwaitsCharacters.takeCharacter_consistent (h : AwaitsCharacters s op) (c : Byte) :
    (s.takeCharacter op c).consistent = true := by
  dsimp only [State.takeCharacter]
  split
  · next hw => exact State.run_consistent (State.advance_consistent h.busy rfl h.bus hw)
  · next hw =>
    have hlength := h.length
    have hwant := h.want
    refine AwaitsCharacters.consistent (op := { op with text := op.text ++ [c] })
      ⟨h.busy, rfl, h.bus, hw, h.code, h.idx, ?_⟩
    rw [List.length_append, List.length_singleton]
    dsimp only
    omega

/-- The request word of a DRAW_TEXT that asks for characters makes the block wait for them (R84). -/
theorem State.acceptTextHeader_consistent (hidle : s.idle = true) {w : Word} (hlen : 0 < (fieldCh w).toNat) :
    (s.acceptTextHeader w).consistent = true := by
  obtain ⟨-, hbus⟩ := State.idle_iff.1 hidle
  have hlt := (fieldCh w).isLt
  refine AwaitsCharacters.consistent (op := latch 6 (fieldX w) (fieldY w) 0 (fieldInv w) [])
    ⟨rfl, rfl, hbus, ?_, rfl, rfl, ?_⟩
  · exact Nat.ne_of_gt hlen
  · simp only [State.acceptTextHeader, State.accept_want, latch, List.length_nil]
    omega

end

theorem State.step_consistent {s t : State} (h : s.consistent = true) (hstep : step s = .next t) :
    t.consistent = true := by
  rcases step_cases hstep with rfl | ⟨_, _, _, -, -, -, rfl⟩ | ⟨op, hbus, hbusy, hop, hwant, rfl⟩ |
    ⟨op, w, rest, -, -, hop, hwant, -, rfl⟩ | ⟨_, op, rest, hidle, -, -, rfl⟩ | ⟨w, rest, hidle, -, -, hlen, rfl⟩
  · exact h
  · exact State.run_consistent h
  · exact State.run_consistent (State.advance_consistent hbusy hop hbus hwant)
  · have hw : AwaitsCharacters (s.setReq rest) op := State.awaits_of_want (s := s.setReq rest) h hop hwant
    exact hw.takeCharacter_consistent _
  · exact State.perform_consistent (s := s.setReq rest) hidle op
  · exact State.acceptTextHeader_consistent (s := s.setReq rest) hidle (Nat.zero_lt_of_lt hlen)

end Sys2Proof.Machine

namespace Sys2Proof.Statements

open Sys2Proof.Machine

/-- Settles O52, branch by branch of `step_cases`: each leads from one of the three situations to one of them. -/
theorem stepKeepsTheSequencerConsistent : Obligations.StepKeepsTheSequencerConsistent := by
  intro s t h hstep
  exact State.step_consistent h hstep

end Sys2Proof.Statements
end

section
/-! PROOF. Who makes the block Ready (R22, R123): while an operation runs, `ready` is untouched until the expansion of an
operation of code 0 ends, and that end writes the result OK and makes the block idle. -/

namespace Sys2Proof.Machine

/-- What a run of the latch content `o` from a block that is not Ready can reach: it is still not Ready, and what is in
progress is `o`; or `o` was an initialise operation and has ended OK. -/
def ReadyOnlyBy (o : Option OpLatch) (s : State) : Prop :=
  (s.seq.ready = false ∧ (s.seq.busy = true → s.seq.op = o)) ∨
  (s.seq.res = .ok ∧ s.seq.busy = false ∧ ∃ op, o = some op ∧ op.code = 0)

namespace ReadyOnlyBy

variable {o : Option OpLatch} {op : OpLatch} {s t : State}

/-- It speaks of the sequencer alone, and not of `idx`. -/
theorem congr (h : ReadyOnlyBy o s) (hseq : t.seq = { s.seq with idx := t.seq.idx }) : ReadyOnlyBy o t := by
  unfold ReadyOnlyBy
  rw [hseq]
  exact h

theorem start (hready : s.seq.ready = false) (hop : s.seq.op = o) : ReadyOnlyBy o s := .inl ⟨hready, fun _ => hop⟩

/-- An operation of code 0 meets no unsupported character, so its end is OK. -/
theorem complete (hready : s.seq.ready = false) : ReadyOnlyBy (some op) (s.complete op) := by
  unfold ReadyOnlyBy
  rw [State.complete_seq]
  by_cases hcode : op.code = 0
  · exact .inr ⟨by simp [resultOf, meetsUnsupported, hcode], rfl, op, rfl, hcode⟩
  · exact .inl ⟨by simpa [hready] using hcode, fun h => by cases h⟩

theorem advance (hready : s.seq.ready = false) (hop : s.seq.op = some op) :
    ReadyOnlyBy (some op) (s.advance op) := by
  unfold State.advance
  split
  · exact start (by simpa using hready) (by simpa using hop)
  · exact complete hready

/-- After the end the block is idle, and a status that comes then is nobody's. -/
theorem proceed (h : ReadyOnlyBy o s) (st : Status) : ReadyOnlyBy o (s.proceed st) := by
  cases hbusy : s.seq.busy with
  | false => simpa [State.proceed, hbusy] using h
  | true =>
    rcases h with ⟨hready, hop⟩ | ⟨-, hidle, -⟩
    · cases o with
      | none => simpa [State.proceed, hbusy, hop hbusy] using start hready (hop hbusy)
      | some op =>
        simp only [State.proceed, hbusy, hop hbusy, if_true]
        split
        · exact advance (s := s.countUnit) hready (hop hbusy)
        · exact .inl ⟨hready, fun h => by cases h⟩
    · cases hbusy.symm.trans hidle

theorem run (h : ReadyOnlyBy o s) : ReadyOnlyBy o s.run :=
  State.runOn_induction (ReadyOnlyBy o) (fun _ _ st _ h => (h.congr (by simp)).proceed st) (fun _ _ h => h.congr rfl)
    s _ h

theorem perform (hready : s.seq.ready = false) (hidle : s.idle = true) (op : OpLatch) :
    ReadyOnlyBy (some op) (s.perform op) := by
  rw [State.perform, if_pos hidle]
  exact run (advance (s := s.accept op 0) hready rfl)

/-- A character word makes the text of the latch longer and leaves its code. -/
theorem takeCharacter (hready : s.seq.ready = false) (op : OpLatch) (c : Byte) :
    ReadyOnlyBy (some { op with text := op.text ++ [c] }) (s.takeCharacter op c) := by
  dsimp only [State.takeCharacter]
  split
  · exact run (advance hready rfl)
  · exact start hready rfl

/-- A block that became Ready did so by the end of an initialise operation. -/
theorem of_ready (h : ReadyOnlyBy o s) (hready : s.seq.ready = true) :
    s.seq.res = .ok ∧ s.seq.busy = false ∧ ∃ op, o = some op ∧ op.code = 0 := by
  rcases h with ⟨hnot, -⟩ | hended
  · cases hready.symm.trans hnot
  · exact hended

end ReadyOnlyBy

/-- The operation of code 0 is the initialise operation (R80). -/
theorem latchOf_code_zero {i : Instr} {op : OpLatch} (h : latchOf i = some op) (hcode : op.code = 0) :
    i = .initialise := by
  cases i <;> cases h
  case initialise => rfl
  all_goals exact absurd hcode (by simp [latch])

end Sys2Proof.Machine

namespace Sys2Proof.Statements

open Sys2Proof.Machine

/-- Settles O55: in every branch of `step_cases` what runs is the operation in progress or the one requested
(`ReadyOnlyBy`), and only the end of one of code 0 sets `ready`. -/
theorem onlyInitialiseMakesReady : Obligations.OnlyInitialiseMakesReady := by
  intro s t _ hstep hnot hready
  rcases step_cases hstep with rfl | ⟨_, _, _, -, -, -, rfl⟩ | ⟨op, -, -, hop, -, rfl⟩ |
    ⟨op, w, rest, -, -, hop, -, -, rfl⟩ | ⟨i, op, rest, hidle, hdecode, hlatch, rfl⟩ | ⟨w, rest, -, -, -, -, rfl⟩
  · cases hready.symm.trans hnot
  · obtain ⟨hres, hbusy, hinit⟩ := (ReadyOnlyBy.start hnot rfl).run.of_ready hready
    exact ⟨hres, hbusy, .inl hinit⟩
  · obtain ⟨hres, hbusy, _, ⟨⟩, hcode⟩ := (ReadyOnlyBy.advance hnot hop).run.of_ready hready
    exact ⟨hres, hbusy, .inl ⟨op, hop, hcode⟩⟩
  · obtain ⟨hres, hbusy, _, ⟨⟩, hcode⟩ :=
      (ReadyOnlyBy.takeCharacter (s := s.setReq rest) hnot op (fieldX w)).of_ready hready
    exact ⟨hres, hbusy, .inl ⟨op, hop, hcode⟩⟩
  · obtain ⟨hres, hbusy, _, ⟨⟩, hcode⟩ :=
      (ReadyOnlyBy.perform (s := s.setReq rest) hnot hidle op).of_ready hready
    exact ⟨hres, hbusy, .inr ⟨rest, latchOf_code_zero hlatch hcode ▸ hdecode⟩⟩
  · cases hready.symm.trans hnot

end Sys2Proof.Statements
end

section
/-! PROOF. The sequencer cannot depend on the receiver (R26, R53, R71): every operation of the engine takes states with the
same sequencer, ports and history to such states, and what comes next is read from the sequencer and the ports alone. -/

namespace Sys2Proof.Machine

/-! ## What comes next -/

/-- What comes next is read from the sequencer and the ports. -/
theorem fetch_congr {s s' : State} (hseq : s.seq = s'.seq) (hport : s.port = s'.port) : fetch s = fetch s' := by
  unfold fetch
  rw [hseq, hport]

theorem fetchRequest_request {ws rest : List Word} {i : Instr} (h : fetchRequest ws = .request i rest) :
    decodeRequest ws = .ok (i, rest) := by
  cases ws with
  | nil => cases h
  | cons w ws =>
    simp only [fetchRequest] at h
    split at h
    · next hd =>
      cases h
      exact hd
    · cases h

theorem fetchCharacter_ne_request {ws rest : List Word} {i : Instr} : fetchCharacter ws ≠ .request i rest := by
  cases ws <;> simp [fetchCharacter]

theorem fetchRequest_ne_character {ws rest : List Word} {i : Instr} : fetchRequest ws ≠ .character i rest := by
  cases ws with
  | nil => simp [fetchRequest]
  | cons w ws => cases hd : decodeRequest (w :: ws) <;> simp [fetchRequest, hd]

theorem fetchCharacter_character {ws rest : List Word} {i : Instr} (h : fetchCharacter ws = .character i rest) :
    ∃ c, i = .charWord c := by
  cases ws with
  | nil => cases h
  | cons w ws =>
    cases h
    exact ⟨_, rfl⟩

/-- A request that is taken is an operation (R80). -/
theorem latchOf_of_fetch_request {s : State} {i : Instr} {rest : List Word} (h : fetch s = .request i rest) :
    ∃ op, latchOf i = some op := by
  unfold fetch at h
  split at h
  · cases h
  · cases h
  · split at h
    · exact latchOf_decodeRequest (fetchRequest_request h)
    · cases h
    · split at h
      · cases h
      · exact absurd h fetchCharacter_ne_request

/-- What is taken as a character word is executed as one (R84). -/
theorem charWord_of_fetch_character {s : State} {i : Instr} {rest : List Word} (h : fetch s = .character i rest) :
    ∃ c, i = .charWord c := by
  unfold fetch at h
  split at h
  · cases h
  · cases h
  · split at h
    · exact absurd h fetchRequest_ne_character
    · cases h
    · split at h
      · cases h
      · exact fetchCharacter_character h

/-- Presenting a transaction puts it on the port (R113). -/
theorem State.present_port (s : State) (p : Planned) :
    (s.present p).port = { s.port with bus := some p.txn } := by
  unfold State.present
  split <;> rfl

end Sys2Proof.Machine

namespace Sys2Proof.Statements

open Sys2Proof.Machine

/-- Whatever outcome the one has, if it is a next state the other has one with the same sequencer side. -/
def FollowsWithSame (o o' : Host.Outcome State Fault Refusal) : Prop :=
  ∀ t, o = .next t → ∃ t', o' = .next t' ∧ SameSequencer t t'

namespace SameSequencer

variable {s s' : State}

theorem follows {t t' : State} (h : SameSequencer t t') : FollowsWithSame (.next t) (.next t') := by
  rintro _ ⟨⟩
  exact ⟨t', rfl, h⟩

/-- An update of the sequencer and the ports that reads nothing else. -/
theorem update (h : SameSequencer s s') (q : Seq → Seq) (p : Port → Port) :
    SameSequencer { s with seq := q s.seq, port := p s.port } { s' with seq := q s'.seq, port := p s'.port } := by
  obtain ⟨hseq, hport, hhist⟩ := h
  exact ⟨congrArg q hseq, congrArg p hport, hhist⟩

theorem setAnswers (h : SameSequencer s s') (as : List Status) : SameSequencer (s.setAnswers as) (s'.setAnswers as) :=
  h.update id fun p => { p with answers := as }

theorem setReq (h : SameSequencer s s') (ws : List Word) : SameSequencer (s.setReq ws) (s'.setReq ws) :=
  h.update id fun p => { p with req := ws }

theorem accept (h : SameSequencer s s') (op : OpLatch) (n : Nat) : SameSequencer (s.accept op n) (s'.accept op n) :=
  h.update (fun q => { q with busy := true, op := some op, idx := 0, want := n }) fun p => { p with done := false }

theorem countUnit (h : SameSequencer s s') : SameSequencer s.countUnit s'.countUnit :=
  h.update (fun q => { q with idx := q.idx + 1 }) id

theorem raise (h : SameSequencer s s') (r : Result) : SameSequencer (s.raise r) (s'.raise r) :=
  h.update (fun q => { q with res := r, busy := false, op := none, want := 0 }) fun p => { p with done := true }

theorem complete (h : SameSequencer s s') (op : OpLatch) : SameSequencer (s.complete op) (s'.complete op) := by
  obtain ⟨hseq, hport, hhist⟩ := h
  exact ⟨by simp only [State.complete_seq, hseq], by simp only [State.complete_port, hport], by simpa using hhist⟩

theorem present (h : SameSequencer s s') (p : Planned) : SameSequencer (s.present p) (s'.present p) := by
  obtain ⟨hseq, hport, hhist⟩ := h
  refine ⟨by simpa using hseq, ?_, by simpa using hhist⟩
  rw [State.present_port, State.present_port, hport]

/-- The receiver's reaction to a transaction is no part of the sequencer side (R53). -/
theorem settle (h : SameSequencer s s') (u : Txn) (st : Status) : SameSequencer (s.settle u st) (s'.settle u st) := by
  obtain ⟨hseq, hport, hhist⟩ := h
  exact ⟨by simpa using hseq, by simp [hport], by simp [hhist]⟩

theorem advance (h : SameSequencer s s') (op : OpLatch) : SameSequencer (s.advance op) (s'.advance op) := by
  obtain ⟨hseq, -⟩ := id h
  unfold State.advance
  rw [hseq]
  split
  · exact h.present _
  · exact h.complete op

theorem proceed (h : SameSequencer s s') (st : Status) : SameSequencer (s.proceed st) (s'.proceed st) := by
  obtain ⟨hseq, -⟩ := id h
  unfold State.proceed
  rw [hseq]
  split
  · split
    · split
      · exact h.countUnit.advance _
      · exact h.raise _
    · exact h
  · exact h

theorem runOn (h : SameSequencer s s') (as : List Status) : SameSequencer (s.runOn as) (s'.runOn as) := by
  induction as generalizing s s' with
  | nil => exact h.setAnswers []
  | cons st as ih =>
    obtain ⟨-, hport, -⟩ := id h
    cases hbus : s.port.bus with
    | none =>
      rw [State.runOn_none hbus, State.runOn_none (hport ▸ hbus)]
      exact h.setAnswers _
    | some u =>
      rw [State.runOn_some hbus, State.runOn_some (hport ▸ hbus)]
      exact ih ((h.settle u st).proceed st)

theorem run (h : SameSequencer s s') : SameSequencer s.run s'.run := by
  obtain ⟨-, hport, -⟩ := id h
  unfold State.run
  rw [hport]
  exact h.runOn _

theorem perform (h : SameSequencer s s') (op : OpLatch) : SameSequencer (s.perform op) (s'.perform op) := by
  obtain ⟨hseq, hport, -⟩ := id h
  unfold State.perform State.idle
  rw [hseq, hport]
  split
  · exact ((h.accept op 0).advance op).run
  · exact h

theorem takeCharacter (h : SameSequencer s s') (op : OpLatch) (c : Byte) :
    SameSequencer (s.takeCharacter op c) (s'.takeCharacter op c) := by
  obtain ⟨hseq, -⟩ := id h
  have htaken := h.update (fun q => { q with op := some { op with text := op.text ++ [c] }, want := q.want - 1 }) id
  dsimp only [State.takeCharacter]
  rw [hseq] at htaken ⊢
  split
  · exact (htaken.advance _).run
  · exact htaken

theorem exec_operation (h : SameSequencer s s') {i : Instr} {op : OpLatch} (hi : latchOf i = some op) :
    FollowsWithSame (exec i s) (exec i s') := by
  rw [exec_of_latchOf hi, exec_of_latchOf hi]
  exact (h.perform op).follows

theorem exec_charWord (h : SameSequencer s s') (c : Byte) :
    FollowsWithSame (exec (.charWord c) s) (exec (.charWord c) s') := by
  obtain ⟨hseq, hport, -⟩ := id h
  change FollowsWithSame (execCharWord c s) (execCharWord c s')
  unfold execCharWord
  rw [hseq, hport]
  split
  · split
    · exact h.follows
    · exact (h.takeCharacter _ c).follows
  · exact h.follows
  · exact fun _ hnext => by cases hnext

theorem step (h : SameSequencer s s') : FollowsWithSame (step s) (step s') := by
  obtain ⟨hseq, hport, -⟩ := id h
  unfold Machine.step
  rw [← fetch_congr hseq hport]
  cases hfetch : fetch s with
  | wait => exact h.follows
  | unit u st =>
    dsimp only
    split
    · exact h.run.follows
    · exact fun _ hnext => by cases hnext
  | resume op => exact (h.advance op).run.follows
  | character i rest =>
    obtain ⟨c, rfl⟩ := charWord_of_fetch_character hfetch
    exact (h.setReq rest).exec_charWord c
  | request i rest =>
    obtain ⟨op, hop⟩ := latchOf_of_fetch_request hfetch
    exact (h.setReq rest).exec_operation hop
  | textHeader w rest => exact ((h.setReq rest).accept _ _).follows
  | emptyLatch => exact fun _ hnext => by cases hnext

end SameSequencer

/-- Settles O56: `SameSequencer` is carried along by whatever comes next, which both states agree on (`fetch_congr`). -/
theorem sequencerIgnoresTheReceiver : Obligations.SequencerIgnoresTheReceiver := by
  intro s s' t h hstep
  exact h.step t hstep

end Sys2Proof.Statements
end

section
/-! PROOF. Data units before a completed INITIALIZE (R183): each delivered one adds the mark DataBeforeInit and no other;
so does a whole fill. -/

namespace Sys2Proof.Machine

/-- A rule that adds no mark adds none either where the receiver is lost (log 9). -/
theorem State.reacting_faults {s : State} {rule : State → State} (h : (rule s).m.faults = s.m.faults) :
    (s.reacting rule).m.faults = s.m.faults := by
  unfold State.reacting
  split
  · rfl
  · exact h

/-- The marks after a data unit that is delivered too early (R183). -/
theorem rxDataWr_faults_notReady {s : State} (hready : s.seq.ready = false) (d : Byte) :
    (rxDataWr d s).m.faults = s.m.faults.addDataBeforeInit := by
  have hreact : (s.reacting State.storeSomewhere).m.faults = s.m.faults := State.reacting_faults rfl
  simp [rxDataWr, hready, hreact]

theorem State.deliver_data_faults_notReady {s : State} (hready : s.seq.ready = false) (d : Byte) :
    (s.deliver (plannedData d)).m.faults = s.m.faults.addDataBeforeInit := by
  have hsettle : (s.deliver (plannedData d)).m.faults = (rxDataWr d
      (({ s with port := { s.port with bus := none } } : State).record (.data d) 0)).m.faults := rfl
  exact hsettle.trans (rxDataWr_faults_notReady (by exact hready) d)

/-- Marking twice is marking once. -/
theorem State.deliverAll_data_faults_notReady {s : State} (hready : s.seq.ready = false) (d : Byte) {n : Nat}
    (hn : n ≠ 0) : (s.deliverAll (List.replicate n (plannedData d))).m.faults = s.m.faults.addDataBeforeInit := by
  induction n generalizing s with
  | zero => exact absurd rfl hn
  | succ n ih =>
    have hfirst := State.deliver_data_faults_notReady hready d
    rw [List.replicate_succ, State.deliverAll_cons']
    by_cases hlast : n = 0
    · subst hlast
      exact hfirst
    · rw [ih (by simpa using hready) hlast, hfirst]
      rfl

/-- The operation that sends `FILL_COUNT` data units of one byte (R140, R141). -/
def IsFill (op : OpLatch) (b : Byte) : Prop :=
  op.code ≠ 0 ∧ resultOf op = .ok ∧ expand op = List.replicate Config.fillCount (plannedData b)

theorem isFill_clearAll : IsFill (latch 3 0 0 0 false []) 0x00 := ⟨by decide, rfl, rfl⟩
theorem isFill_fillAll : IsFill (latch 4 0 0 0 false []) 0xFF := ⟨by decide, rfl, rfl⟩

end Sys2Proof.Machine

namespace Sys2Proof.Statements

open Sys2Proof.Machine

/-- A fill of a block that is not Ready, its transport answering 0 throughout. -/
theorem fill_notReady {s : State} {op : OpLatch} {b : Byte} {rest : List Status} (hfill : IsFill op b)
    (hzeros : IdleWithZeros s Config.fillCount rest) (hready : s.seq.ready = false) :
    (s.perform op).seq = ended s.seq ⟨0, 0⟩ Config.fillCount ∧
      (s.perform op).m.hist = s.m.hist ++ List.replicate Config.fillCount (dataRecord b) ∧
      (s.perform op).m.faults = { s.m.faults with dataBeforeInit := true } := by
  obtain ⟨hcode, hres, hexpand⟩ := hfill
  obtain ⟨hidle, hanswers⟩ := hzeros
  have hlength : (expand op).length = Config.fillCount := by rw [hexpand, List.length_replicate]
  rw [State.perform_done hidle hlength hanswers, State.done_seq, State.done_m, State.deliverAll_hist, hlength, hexpand]
  refine ⟨?_, ?_, State.deliverAll_data_faults_notReady (s := s.accept op 0) hready b (by decide)⟩
  · rw [decide_eq_false hcode, Bool.or_false, hres]
    rfl
  · rw [List.map_replicate]
    rfl

/-- Settles O25: both fills are runs of `FILL_COUNT` data units, and each unit sent too early adds the one mark. -/
theorem fillBeforeInitialiseIsMarked : Obligations.FillBeforeInitialiseIsMarked := by
  intro i b hmem s rest hzeros hready
  simp only [List.mem_cons, List.not_mem_nil, or_false, Prod.mk.injEq] at hmem
  rcases hmem with ⟨rfl, rfl⟩ | ⟨rfl, rfl⟩
  · exact ⟨_, exec_of_latchOf rfl s, fill_notReady isFill_clearAll hzeros hready⟩
  · exact ⟨_, exec_of_latchOf rfl s, fill_notReady isFill_fillAll hzeros hready⟩

end Sys2Proof.Statements
end

section
/-! PROOF. Which instruction a step runs (R23, R84, R113), what the operations do on a busy block (R23), and what a
micro-operation does alone (R36). -/

namespace Sys2Proof.Machine

/-! ## The transaction on the bus -/

/-- The receiver reads one of the five wire instructions from a unit (R86 to R92). -/
theorem decodeUnit_ok {o : Origin} {c p : Byte} {i : Instr} (h : decodeUnit o c p = .ok i) :
    (∃ d, i = .dataWr d) ∨ (∃ q, i = .pageSel q) ∨ (∃ n, i = .colLo n) ∨ (∃ n, i = .colHi n) ∨ ∃ b, i = .cfg b := by
  unfold decodeUnit at h
  split at h
  · split at h <;> cases h
    exact .inr (.inr (.inr (.inr ⟨p, rfl⟩)))
  · split at h
    · unfold decodeCursorCommand at h
      split at h
      · cases h
        exact .inr (.inl ⟨_, rfl⟩)
      · split at h
        · cases h
          exact .inr (.inr (.inl ⟨_, rfl⟩))
        · split at h <;> cases h
          exact .inr (.inr (.inr (.inl ⟨_, rfl⟩)))
    · cases h
  · split at h <;> cases h
    exact .inl ⟨p, rfl⟩
  · cases h

/-- To execute the instruction of a unit is to let the receiver react to the unit (R175). -/
theorem exec_of_decodeUnit {o : Origin} {c p : Byte} {i : Instr} (h : decodeUnit o c p = .ok i) (s : State) :
    exec i s = .next (receive o c p s) := by
  rcases decodeUnit_ok h with ⟨_, rfl⟩ | ⟨_, rfl⟩ | ⟨_, rfl⟩ | ⟨_, rfl⟩ | ⟨_, rfl⟩ <;> rw [receive, h] <;> rfl

theorem deliverable_ofUnit {o : Origin} {c p : Byte} {i : Instr} (h : decodeUnit o c p = .ok i) (st : Status) :
    deliverable (.ofUnit c p o) st = true := by
  simp [deliverable, Txn.ofUnit, h, Except.isOk, Except.toBool]

/-- A step that settles the outstanding transaction: the sequencer proceeds with its status and runs on. -/
theorem step_settle {s : State} {u : Txn} {st : Status} {as : List Status} (hbus : s.port.bus = some u)
    (hanswers : s.port.answers = st :: as) (hdeliverable : deliverable u st = true) :
    step s = .next (((s.settle u st).proceed st).runOn as) := by
  rw [step_unit hbus hanswers, if_pos hdeliverable, State.run, hanswers, State.runOn_some hbus]

/-! ## One transaction by itself -/

theorem State.performTxn_silent {s : State} (hbus : s.port.bus = none) (hanswers : s.port.answers = []) (u : Txn) :
    s.performTxn u = { s with port := { s.port with bus := some u } } := by
  simp [State.performTxn, hbus, hanswers]

theorem State.performTxn_answered {s : State} (hbus : s.port.bus = none) {st : Status} {as : List Status}
    (hanswers : s.port.answers = st :: as) (u : Txn) : s.performTxn u = (s.setAnswers as).settle u st := by
  simp [State.performTxn, hbus, hanswers]

theorem State.performTxn_outstanding {s : State} (hbus : s.port.bus ≠ none) (u : Txn) : s.performTxn u = s := by
  simp [State.performTxn, Option.isSome_iff_ne_none.2 hbus]

/-- CMD asks the receiver only about a unit that the transport answers (log 17). -/
theorem execCmd_unanswered {s : State} (h : s.port.bus ≠ none ∨ s.port.answers = []) (b : Byte) :
    execCmd b s = .next (s.performTxn (.command b (cmdOrigin s))) := by
  unfold execCmd
  split
  · next hbus hanswers => simp [hbus, hanswers] at h
  · rfl
  · rfl

/-- The outstanding probe, taken from the port and executed as PRB, is settled as the engine settles it (R112, R113). -/
theorem execPrb_taken {s : State} {st : Status} {as : List Status} (hanswers : s.port.answers = st :: as) :
    execPrb { s with port := { s.port with bus := none } } = .next ((s.settle .probe st).setAnswers as) := by
  have htaken := State.performTxn_answered (s := { s with port := { s.port with bus := none } }) rfl hanswers .probe
  rw [execPrb, htaken, State.settle_probe _ _ _ rfl, State.settle_probe _ _ _ rfl]
  rfl

end Sys2Proof.Machine

namespace Sys2Proof.Statements

open Sys2Proof.Machine

/-- Settles O11, one claim per branch of `fetch`: a request, a character word, a text header, a delivered unit, a
probe. -/
theorem stepRunsTheDecodedInstruction : Obligations.StepRunsTheDecodedInstruction := by
  refine ⟨fun s i rest hidle hdecode => ?_, fun s op w rest hbusy hop hwant hbus hreq => ?_,
    fun s w rest e hidle hreq hdecode => ?_, fun s c p o i as hbus hanswers hdecode => ?_,
    fun s st as hbus hanswers => ?_⟩
  · obtain ⟨hbusy, hbus⟩ := State.idle_iff.1 hidle
    exact step_request hbus hbusy hdecode
  · rw [step_character hbus hbusy hop hwant hreq]
    exact (execCharWord_awaited (s := s.setReq rest) hbus hbusy hop hwant (fieldX w)).symm
  · obtain ⟨hbusy, hbus⟩ := State.idle_iff.1 hidle
    exact step_textHeader hbus hbusy hreq hdecode
  · exact ⟨s.settle (.ofUnit c p o) 0, exec_of_decodeUnit hdecode _,
      step_settle hbus hanswers (deliverable_ofUnit hdecode 0)⟩
  · refine ⟨(s.settle .probe st).setAnswers as, execPrb_taken hanswers, ?_⟩
    rw [step_settle hbus hanswers rfl, State.proceed_setAnswers, State.runOn_setAnswers]

/-- Settles O16: an operation is its latch performed, and a busy block is not idle. -/
theorem busyBlockTakesNoRequest : Obligations.BusyBlockTakesNoRequest := by
  intro i op s hlatch hbusy
  have hidle : s.idle = false := by simp [State.idle, hbusy]
  rw [exec_of_latchOf hlatch, State.perform_busy hidle]

/-- Settles O48: each of the three performs its transaction by `performTxn`, which a silent transport leaves on the port
and an outstanding transaction keeps off it. -/
theorem oneTransactionAtATime : Obligations.OneTransactionAtATime := by
  intro s i u hmicro
  have hexec : s.port.bus ≠ none ∨ s.port.answers = [] → exec i s = .next (s.performTxn u) := by
    intro hunanswered
    rcases hmicro with hprb | ⟨b, rfl, rfl⟩ | ⟨d, rfl, rfl⟩
    · cases List.mem_singleton.1 hprb
      rfl
    · exact execCmd_unanswered hunanswered b
    · rfl
  constructor
  · intro hbus hanswers
    rw [hexec (.inr hanswers), State.performTxn_silent hbus hanswers]
  · intro hbus
    rw [hexec (.inl hbus), State.performTxn_outstanding hbus]

end Sys2Proof.Statements
end

section
/-! PROOF. The state right after reset (R35, R230): at rest, with nothing to do, and a start for every invariant. -/

namespace Sys2Proof.Machine

theorem State.step_reset : step State.reset = .next State.reset := step_noRequest rfl rfl rfl

theorem State.reset_atRest : AtRest State.reset := ⟨rfl, rfl, rfl, rfl⟩

/-- The surface lists nothing, so no byte of it holds a value (log 7). -/
theorem State.reset_at (p : BitVec 3) (c : BitVec 7) : State.reset.rx.fb.at p c = none := by
  rw [State.reset_fb]
  rfl

theorem State.reset_onlyLegal : Statements.OnlyLegal State.reset :=
  ⟨fun _ hr => absurd hr List.not_mem_nil, fun _ hu => by cases hu⟩

end Sys2Proof.Machine

namespace Sys2Proof.Statements

open Sys2Proof.Machine

/-- Settles O10: the values are those of the definition, and without a request nothing comes next (`step_noRequest`). -/
theorem resetIsIdle : Obligations.ResetIsIdle :=
  ⟨rfl, rfl, rfl, rfl, State.reset_at, State.step_reset⟩

/-- Settles O57: the base case of O49, O50, O52 and O53. -/
theorem resetMeetsTheInvariants : Obligations.ResetMeetsTheInvariants :=
  ⟨State.reset_fb ▸ Memory.nil_wf, Result.ok_wf, State.reset_atRest.consistent,
    State.reset_onlyLegal, rfl⟩

end Sys2Proof.Statements
end

section
/-! PROOF. The surface memory in a run: each operation of the engine keeps its canonical form (R51, R73), since only the
receiver's reaction to a transaction writes it. -/

namespace Sys2Proof.Machine

/-- Settling a transaction is the one operation that can change the surface, and it keeps the form (`settle_wf`). -/
theorem EngineClosed.memory_wf : EngineClosed fun s t => s.rx.fb.wf → t.rx.fb.wf where
  refl _ := id
  trans a b := b ∘ a
  setAnswers _ _ := id
  setReq _ _ := id
  accept _ _ _ := id
  relatch _ _ _ := id
  present s p := by simp
  settle := State.settle_wf
  countUnit _ := id
  complete s op := by simp
  fail _ _ _ := id

end Sys2Proof.Machine

namespace Sys2Proof.Statements

open Sys2Proof.Machine

/-- Settles O49: a step is a chain of engine operations, each of which keeps the canonical form. -/
theorem stepKeepsMemoryCanonical : Obligations.StepKeepsMemoryCanonical := by
  intro s t hwf hstep
  exact EngineClosed.memory_wf.step hstep hwf

end Sys2Proof.Statements
end

section
/-! PROOF. A run may be cut anywhere (R67, R113): an operation that is held has a legal transaction on the port, so the
next step settles it and runs on, and `State.runOn_append` joins the two runs. -/

namespace Sys2Proof.Machine

/-- While an entry of an expansion is outstanding, a step is a run with whatever the transport answers, for the receiver
has a rule for every such entry (R98, R175); without an answer nothing happens (R240). -/
theorem Presents.step {s : State} {op : OpLatch} {p : Planned} (h : Presents s op p) : step s = .next s.run := by
  have hlegal : p.txn.legal = true := legal_of_mem_expand (List.mem_of_getElem? h.entry)
  cases hanswers : s.port.answers with
  | nil =>
    have hrun : s.run = s := by
      rw [State.run, hanswers, State.runOn, ← hanswers, State.setAnswers_self]
    rw [step_held h.bus hanswers, hrun]
  | cons st as => rw [step_unit h.bus hanswers, if_pos (deliverable_of_legal hlegal st)]

/-- An operation performed with the answers `as` is one run over them from a state that does not depend on them. -/
theorem State.perform_setAnswers {s : State} (hidle : s.idle = true) (op : OpLatch) (as : List Status) :
    (s.setAnswers as).perform op = ((s.accept op 0).advance op).runOn as := by
  have haccept : (s.setAnswers as).accept op 0 = (s.accept op 0).setAnswers as := rfl
  rw [State.perform_idle (s := s.setAnswers as) hidle, haccept, State.advance_setAnswers, State.runOn_setAnswers,
    State.setAnswers_answers]

/-- An operation that is still waiting presents an entry of an expansion, also to a transport with other answers. -/
theorem State.presents_of_perform_held {s : State} (hidle : s.idle = true) (op : OpLatch)
    (hheld : (s.perform op).port.bus ≠ none) (bs : List Status) :
    ∃ op' p, Presents ((s.perform op).setAnswers bs) op' p := by
  obtain ⟨u, hbus⟩ := Option.ne_none_iff_exists'.1 hheld
  have hconsistent : ((s.perform op).setAnswers bs).consistent = true := State.perform_consistent hidle op
  exact State.presents_of_bus hconsistent hbus

end Sys2Proof.Machine

namespace Sys2Proof.Statements

open Sys2Proof.Machine

/-- Settles O15: both sides are runs of the same accepted operation, cut after `as` on the left. -/
theorem heldOperationResumes : Obligations.HeldOperationResumes := by
  intro i op s t as bs hlatch hidle hexec hheld
  rw [exec_of_latchOf hlatch] at hexec ⊢
  cases hexec
  obtain ⟨_, _, hpresents⟩ := State.presents_of_perform_held (s := s.setAnswers as) hidle op hheld bs
  rw [State.perform_setAnswers hidle] at hheld hpresents ⊢
  rw [hpresents.step, State.run, State.setAnswers_answers, State.runOn_setAnswers, ← State.runOn_append _ _ _ hheld,
    State.perform_setAnswers hidle]

end Sys2Proof.Statements
end

section
/-! PROOF. The surface as pixels (R51, R60): what a store at the cursor draws. -/

namespace Sys2Proof.Machine

/-- The bit of a row in its page's byte is the row modulo 8 (R51). -/
theorem State.pixel_eq (s : State) (px : BitVec 7) (py : BitVec 6) :
    s.pixel px py = (s.rx.fb.at (py.extractLsb' 3 3) px).map fun b => b.getLsbD (py.toNat % 8) := by
  simp [State.pixel]

/-- The page of a row is the row divided by 8 (R51). -/
theorem page_of_row_eq_iff (py : BitVec 6) (p : BitVec 3) : py.extractLsb' 3 3 = p ↔ py.toNat / 8 = p.toNat := by
  have hrow := py.isLt
  rw [← BitVec.toNat_inj, BitVec.extractLsb'_toNat, Nat.shiftRight_eq_div_pow]
  omega

/-- A byte stored at the cursor is eight pixels of its column, and leaves every other pixel. -/
theorem State.pixel_storeAtCursor (s : State) (d : Byte) (px : BitVec 7) (py : BitVec 6) :
    (s.storeAtCursor d).pixel px py =
      if px = s.rx.col ∧ py.toNat / 8 = s.rx.page.toNat then some (d.getLsbD (py.toNat % 8)) else s.pixel px py := by
  have hposition : (s.rx.page = py.extractLsb' 3 3 ∧ s.rx.col = px) ↔
      (px = s.rx.col ∧ py.toNat / 8 = s.rx.page.toNat) := by
    rw [← page_of_row_eq_iff, eq_comm (a := px), eq_comm (b := s.rx.page), and_comm]
  have hfb : (s.storeAtCursor d).rx.fb = s.rx.fb.put s.rx.page s.rx.col d := rfl
  rw [State.pixel_eq, State.pixel_eq, hfb, Memory.at_put, if_congr hposition rfl rfl]
  split <;> rfl

/-- Where the cursor is does not matter to what is shown. -/
theorem State.pixel_advanceCursor (s : State) (px : BitVec 7) (py : BitVec 6) :
    s.advanceCursor.pixel px py = s.pixel px py := by
  rw [State.pixel, State.advanceCursor_fb, State.pixel]

end Sys2Proof.Machine

namespace Sys2Proof.Statements

open Sys2Proof.Machine

/-- Settles O41: a data unit at a ready, known display is a store at the cursor and an advance that draws nothing. -/
theorem dataUnitDrawsEightPixels : Obligations.DataUnitDrawsEightPixels := by
  intro s t d hunmarked hready hexec px py
  have ht : rxDataWr d s = t := by cases hexec; rfl
  rw [← ht, rxDataWr_known hready hunmarked.rxLost, State.pixel_advanceCursor, State.pixel_storeAtCursor]

end Sys2Proof.Statements
end

section
/-! PROOF. The cursor commands while the receiver is known (R176 to R178): each writes its own part of the cursor, and
the three together name the position. -/

namespace Sys2Proof.Machine

section
variable {s : State} (h : s.rxLost = false)
include h

theorem exec_pageSel_known (p : BitVec 3) : exec (.pageSel p) s = .next { s with rx := { s.rx with page := p } } :=
  congrArg Host.Outcome.next (State.reacting_known h _)

theorem exec_colLo_known (n : BitVec 4) :
    exec (.colLo n) s = .next { s with rx := { s.rx with col := s.rx.col.extractLsb' 4 3 ++ n } } :=
  congrArg Host.Outcome.next (State.reacting_known h _)

theorem exec_colHi_known {n : BitVec 4} (hn : n.toNat ≤ 7) :
    exec (.colHi n) s = .next { s with rx := { s.rx with col := n.extractLsb' 0 3 ++ s.rx.col.extractLsb' 0 4 } } :=
  congrArg Host.Outcome.next ((if_pos hn).trans (State.reacting_known h _))

end

/-- The high nibble, put over a column whose low nibble is `lo`, leaves nothing of what the column was before. -/
theorem column_of_nibbles (c : BitVec 7) (lo hi : BitVec 4) :
    hi.extractLsb' 0 3 ++ (c.extractLsb' 4 3 ++ lo).extractLsb' 0 4 = BitVec.ofNat 7 (16 * hi.toNat + lo.toNat) := by
  have hlo := lo.isLt
  apply BitVec.eq_of_toNat_eq
  rw [BitVec.extractLsb'_append_eq_right, BitVec.toNat_append, ← Nat.shiftLeft_add_eq_or_of_lt hlo, Nat.shiftLeft_eq,
    BitVec.extractLsb'_toNat, Nat.shiftRight_zero, BitVec.toNat_ofNat]
  omega

end Sys2Proof.Machine

namespace Sys2Proof.Statements

open Sys2Proof.Machine

theorem execAll_cons_next {i : Instr} {is : List Instr} {s t : State} (h : exec i s = .next t) :
    execAll (i :: is) s = execAll is t := by
  rw [execAll, h]

/-- The cursor afterwards is the one named, whatever it was before (R178). -/
theorem execAll_cursorCommands {s : State} (h : s.rxLost = false) (p : BitVec 3) (lo : BitVec 4) {hi : BitVec 4}
    (hhi : hi.toNat ≤ 7) :
    execAll [.pageSel p, .colLo lo, .colHi hi] s =
      .next { s with rx := { s.rx with page := p, col := BitVec.ofNat 7 (16 * hi.toNat + lo.toNat) } } := by
  rw [execAll_cons_next (exec_pageSel_known h p), execAll_cons_next (exec_colLo_known (by exact h) lo),
    execAll_cons_next (exec_colHi_known (by exact h) hhi), execAll, column_of_nibbles]

/-- Settles O39: what the three commands leave depends neither on the page nor on the column, so a second time they
leave the same. -/
theorem cursorCommandsNameThePosition : Obligations.CursorCommandsNameThePosition := by
  intro s p lo hi hunmarked hhi
  have hknown := hunmarked.rxLost
  exact ⟨execAll_cursorCommands hknown p lo hhi, execAll_cursorCommands (by exact hknown) p lo hhi⟩

end Sys2Proof.Statements
end

section
/-! PROOF. The request decoder and the encoder (30_encoding.md): what is decoded for each code (R82), the fields of a
request word as the digits of its number (R81), what masking does to them, and the characters (R84). -/

namespace Sys2Proof

/-! ## One equation for each code (R82) -/

section Codes
variable {w : Word}

theorem decodeRequest_initialise (h : fieldCode w = 0) (ws : List Word) :
    decodeRequest (w :: ws) = .ok (.initialise, ws) := by simp [decodeRequest, h]
theorem decodeRequest_probe (h : fieldCode w = 1) (ws : List Word) :
    decodeRequest (w :: ws) = .ok (.probe, ws) := by simp [decodeRequest, h]
theorem decodeRequest_setCursor (h : fieldCode w = 2) (ws : List Word) :
    decodeRequest (w :: ws) = .ok (.setCursor (fieldX w) (fieldY w), ws) := by simp [decodeRequest, h]
theorem decodeRequest_clearAll (h : fieldCode w = 3) (ws : List Word) :
    decodeRequest (w :: ws) = .ok (.clearAll, ws) := by simp [decodeRequest, h]
theorem decodeRequest_fillAll (h : fieldCode w = 4) (ws : List Word) :
    decodeRequest (w :: ws) = .ok (.fillAll, ws) := by simp [decodeRequest, h]
theorem decodeRequest_drawGlyph (h : fieldCode w = 5) (ws : List Word) :
    decodeRequest (w :: ws) = .ok (.drawGlyph (fieldCh w) (fieldInv w), ws) := by simp [decodeRequest, h]
theorem decodeRequest_drawBitmap (h : fieldCode w = 7) (ws : List Word) :
    decodeRequest (w :: ws) = .ok (.drawBitmap (fieldX w) (fieldY w), ws) := by simp [decodeRequest, h]

/-- A DRAW_TEXT with enough words behind it takes the first `len` of them as its text (R84). -/
theorem decodeRequest_drawText (h : fieldCode w = 6) {ws : List Word} (hlen : (fieldCh w).toNat ≤ ws.length) :
    decodeRequest (w :: ws) = .ok (.drawText ((ws.take (fieldCh w).toNat).map fieldX) (fieldX w) (fieldY w)
      (fieldInv w), ws.drop (fieldCh w).toNat) := by
  simp [decodeRequest, h, hlen]

theorem decodeRequest_drawText_short (h : fieldCode w = 6) {ws : List Word} (hlen : ws.length < (fieldCh w).toNat) :
    decodeRequest (w :: ws) = .error .missingCharacters := by
  simp [decodeRequest, h, hlen]

end Codes

/-- A DRAW_TEXT followed by exactly its characters and more words. -/
theorem decodeRequest_drawText_append {w : Word} (h : fieldCode w = 6) {cs : List Word}
    (hlen : cs.length = (fieldCh w).toNat) (rest : List Word) :
    decodeRequest (w :: (cs ++ rest)) =
      .ok (.drawText (cs.map fieldX) (fieldX w) (fieldY w) (fieldInv w), rest) := by
  rw [decodeRequest_drawText h (by simp [← hlen]), ← hlen, List.take_left, List.drop_left]

/-- The words behind a whole DRAW_TEXT are as many as its length says. -/
theorem length_of_decodeRequest_drawText {w : Word} (h : fieldCode w = 6) {cs : List Word} {i : Instr}
    (hdecode : decodeRequest (w :: cs) = .ok (i, [])) : cs.length = (fieldCh w).toNat := by
  rcases Nat.lt_or_ge cs.length (fieldCh w).toNat with hlen | hlen
  · rw [decodeRequest_drawText_short h hlen] at hdecode
    cases hdecode
  · rw [decodeRequest_drawText h hlen, Except.ok.injEq, Prod.mk.injEq, List.drop_eq_nil_iff] at hdecode
    omega

/-! ## The fields of a word (R81) -/

/-- The reserved bits `W[28:25]` (R81). -/
def fieldReserved (w : Word) : BitVec 4 := w.extractLsb' 25 4

/-- The number of a word is made of its fields as R81 says. -/
theorem toNat_eq_fields (w : Word) : w.toNat =
    (fieldCode w).toNat * 2 ^ 29 + (fieldReserved w).toNat * 2 ^ 25 + (fieldInv w).toNat * 2 ^ 24 +
      (fieldCh w).toNat * 2 ^ 16 + (fieldY w).toNat * 2 ^ 8 + (fieldX w).toNat := by
  have hlt := w.isLt
  have hinv : (fieldInv w).toNat = w.toNat / 2 ^ 24 % 2 := by
    rw [fieldInv, BitVec.getLsbD, Nat.toNat_testBit]
  rw [hinv, fieldCode, fieldReserved, fieldCh, fieldY, fieldX]
  simp only [extractLsb'_toNat]
  omega

/-- Two words with the same fields and the same reserved bits are one word. -/
theorem word_ext {w v : Word} (hcode : fieldCode w = fieldCode v) (hreserved : fieldReserved w = fieldReserved v)
    (hinv : fieldInv w = fieldInv v) (hch : fieldCh w = fieldCh v) (hy : fieldY w = fieldY v)
    (hx : fieldX w = fieldX v) : w = v := by
  apply BitVec.eq_of_toNat_eq
  rw [toNat_eq_fields w, hcode, hreserved, hinv, hch, hy, hx, ← toNat_eq_fields]

/-- The digits of a word's number are its fields. -/
theorem fields_of_toNat {w : Word} {code rsv : Nat} {inv : Bool} {ch y x : Byte} (hcode : code < 8) (hrsv : rsv < 16)
    (h : w.toNat = code * 2 ^ 29 + rsv * 2 ^ 25 + inv.toNat * 2 ^ 24 + ch.toNat * 2 ^ 16 + y.toNat * 2 ^ 8 + x.toNat) :
    fieldCode w = BitVec.ofNat 3 code ∧ fieldInv w = inv ∧ fieldCh w = ch ∧ fieldY w = y ∧ fieldX w = x := by
  rw [toNat_eq_fields] at h
  have := (fieldReserved w).isLt
  have := (fieldInv w).toNat_lt
  have := inv.toNat_lt
  have := (fieldCh w).isLt
  have := ch.isLt
  have := (fieldY w).isLt
  have := y.isLt
  have := (fieldX w).isLt
  have := x.isLt
  refine ⟨BitVec.eq_of_toNat_eq ?_, Function.LeftInverse.injective Bool.ofNat_toNat ?_, BitVec.eq_of_toNat_eq ?_,
    BitVec.eq_of_toNat_eq ?_, BitVec.eq_of_toNat_eq ?_⟩
  · rw [BitVec.toNat_ofNat]
    omega
  all_goals omega

@[simp] theorem fieldReserved_pack (code : BitVec 3) (inv : Bool) (ch y x : Byte) :
    fieldReserved (packRequest code inv ch y x) = 0 := by
  apply BitVec.eq_of_toNat_eq
  have := ch.isLt
  have := y.isLt
  have := x.isLt
  have := inv.toNat_lt
  rw [fieldReserved, extractLsb'_toNat, packRequest_toNat]
  change _ = 0
  omega

/-! ## Masking (R82) -/

section And
variable (w v : Word)

@[simp] theorem fieldCode_and : fieldCode (w &&& v) = fieldCode w &&& fieldCode v := BitVec.extractLsb'_and
@[simp] theorem fieldReserved_and : fieldReserved (w &&& v) = fieldReserved w &&& fieldReserved v :=
  BitVec.extractLsb'_and
@[simp] theorem fieldInv_and : fieldInv (w &&& v) = (fieldInv w && fieldInv v) := BitVec.getLsbD_and
@[simp] theorem fieldCh_and : fieldCh (w &&& v) = fieldCh w &&& fieldCh v := BitVec.extractLsb'_and
@[simp] theorem fieldY_and : fieldY (w &&& v) = fieldY w &&& fieldY v := BitVec.extractLsb'_and
@[simp] theorem fieldX_and : fieldX (w &&& v) = fieldX w &&& fieldX v := BitVec.extractLsb'_and

end And

/-- To mask a word with a packed one is to mask each of its fields; the reserved bits go. -/
theorem and_packRequest (w : Word) (code : BitVec 3) (inv : Bool) (ch y x : Byte) :
    w &&& packRequest code inv ch y x =
      packRequest (fieldCode w &&& code) (fieldInv w && inv) (fieldCh w &&& ch) (fieldY w &&& y) (fieldX w &&& x) := by
  apply word_ext <;> simp

/-! ## Character words (R84) -/

/-- The bits of a character word that are used. -/
theorem and_characterMask (c : Word) : c &&& 0xFF = packCharacter (fieldX c) := by
  apply BitVec.eq_of_toNat_eq
  rw [packCharacter_toNat, fieldX, extractLsb'_toNat, BitVec.toNat_and]
  exact (Nat.and_two_pow_sub_one_eq_mod c.toNat 8).trans (by simp)

theorem map_packCharacter_fieldX (cs : List Word) : (cs.map fieldX).map packCharacter = cs.map (· &&& 0xFF) := by
  rw [List.map_map]
  exact List.map_congr_left fun c _ => (and_characterMask c).symm

theorem map_fieldX_packCharacter (text : List Byte) : (text.map packCharacter).map fieldX = text := by
  rw [List.map_map]
  exact (List.map_congr_left fun c _ => fieldX_packCharacter c).trans (List.map_id text)

theorem packCharacter_eq_zeroExtend (c : Byte) : packCharacter c = c.zeroExtend 32 := by
  apply BitVec.eq_of_toNat_eq
  have := c.isLt
  rw [packCharacter_toNat, BitVec.toNat_setWidth]
  omega

end Sys2Proof
end

section
/-! PROOF. The round trip of decoder and encoder on every row (R83), the fields at their places (R81, R82), and the bits
that do not matter (R83). -/

namespace Sys2Proof

/-- The canonical words of an operation, followed by any others, are decoded as it, and the others are left. -/
theorem decodeRequest_encode_append {i : Instr} (hwf : i.wf = true) (hplace : i.place = .request) {ws : List Word}
    (hencode : encode i = .words ws) (rest : List Word) : decodeRequest (ws ++ rest) = .ok (i, rest) := by
  cases i <;> cases hencode
  case initialise => exact decodeRequest_initialise (fieldCode_pack ..) rest
  case probe => exact decodeRequest_probe (fieldCode_pack ..) rest
  case setCursor x y => simpa using decodeRequest_setCursor (fieldCode_pack 2 false 0 y x) rest
  case clearAll => exact decodeRequest_clearAll (fieldCode_pack ..) rest
  case fillAll => exact decodeRequest_fillAll (fieldCode_pack ..) rest
  case drawGlyph ch inv => simpa using decodeRequest_drawGlyph (fieldCode_pack 5 inv ch 0 0) rest
  case drawText text x y inv =>
    have hlen : text.length ≤ 255 := by simpa [Instr.wf] using hwf
    have hch : (BitVec.ofNat 8 text.length).toNat = text.length := by rw [BitVec.toNat_ofNat]; omega
    have hdecode := decodeRequest_drawText_append (cs := text.map packCharacter)
      (fieldCode_pack 6 inv (BitVec.ofNat 8 text.length) y x) (by rw [fieldCh_pack, hch, List.length_map]) rest
    rwa [map_fieldX_packCharacter, fieldX_pack, fieldY_pack, fieldInv_pack] at hdecode
  case drawBitmap x y => simpa using decodeRequest_drawBitmap (fieldCode_pack 7 false 0 y x) rest
  all_goals cases hplace

theorem decodeWhole_of_decodeRequest {ws : List Word} {i : Instr} (h : decodeRequest ws = .ok (i, [])) :
    decodeWhole ws = .ok i := by
  rw [decodeWhole, h]
  rfl

/-- An operation is encoded as words (R82, R84). -/
theorem encode_of_place_request {i : Instr} (h : i.place = .request) : ∃ ws, encode i = .words ws := by
  cases i <;> cases h <;> exact ⟨_, rfl⟩

theorem decode_encode_of_request {i : Instr} (hwf : i.wf = true) (hplace : i.place = .request) :
    decode .request (encode i) = .ok i := by
  obtain ⟨ws, hws⟩ := encode_of_place_request hplace
  have hdecode := decodeRequest_encode_append hwf hplace hws []
  rw [List.append_nil] at hdecode
  rw [hws]
  exact decodeWhole_of_decodeRequest hdecode

/-- Decode of encode, row by row: the operations as one, each other row in its own place (R84, R86 to R92, R103). -/
theorem decode_encode {i : Instr} (hwf : i.wf = true) : decode i.place (encode i) = .ok i := by
  cases i
  case charWord c => exact congrArg (fun d => Except.ok (Instr.charWord d)) (fieldX_packCharacter c)
  case dataWr d => exact Machine.decodeUnit_data d
  case pageSel p => exact decodeCursorCommand_pageSel p
  case colLo n => exact decodeCursorCommand_colLo n
  case colHi n => exact decodeCursorCommand_colHi n
  case cfg b => exact Machine.decodeUnit_cfg b
  case prb => rfl
  case cmd b => rfl
  case dat d => rfl
  all_goals exact decode_encode_of_request hwf rfl

end Sys2Proof

namespace Sys2Proof.Statements

open Sys2Proof.Machine

/-- Settles O3: the operations by the equation of their code (`decodeRequest_encode_append`), the other rows each in its
place. -/
theorem decodeOfEncodeIsTheInstruction : Obligations.DecodeOfEncodeIsTheInstruction := by
  intro i hwf
  exact ⟨decode_encode hwf, fun ws rest hplace hencode => decodeRequest_encode_append hwf hplace hencode rest⟩

/-! ## The fields of a request number (R81) -/

theorem requestNumber_toNat {code rsv : Nat} (hcode : code < 8) (hrsv : rsv < 16) (inv : Bool) (ch y x : Byte) :
    (requestNumber code rsv inv.toNat ch.toNat y.toNat x.toNat).toNat =
      code * 2 ^ 29 + rsv * 2 ^ 25 + inv.toNat * 2 ^ 24 + ch.toNat * 2 ^ 16 + y.toNat * 2 ^ 8 + x.toNat := by
  have := inv.toNat_lt
  have := ch.isLt
  have := y.isLt
  have := x.isLt
  rw [requestNumber, BitVec.toNat_ofNat]
  omega

theorem packRequest_eq_requestNumber {code : Nat} (hcode : code < 8) (inv : Bool) (ch y x : Byte) :
    packRequest (BitVec.ofNat 3 code) inv ch y x = requestNumber code 0 inv.toNat ch.toNat y.toNat x.toNat := by
  apply BitVec.eq_of_toNat_eq
  rw [packRequest_toNat, requestNumber_toNat hcode (by decide), BitVec.toNat_ofNat, Nat.mod_eq_of_lt hcode]
  omega

/-- Settles O2: a request number has the fields it is made of, and each code is read by its equation. -/
theorem requestFieldsStandAtTheirPlaces : Obligations.RequestFieldsStandAtTheirPlaces := by
  intro rsv inv ch y x ws word
  have hfields (code : Nat) (hcode : code < 8) :
      fieldCode (word code) = BitVec.ofNat 3 code ∧ fieldInv (word code) = inv ∧ fieldCh (word code) = ch ∧
        fieldY (word code) = y ∧ fieldX (word code) = x :=
    fields_of_toNat hcode rsv.isLt (requestNumber_toNat hcode rsv.isLt inv ch y x)
  obtain ⟨hcode0, -⟩ := hfields 0 (by decide)
  obtain ⟨hcode1, -⟩ := hfields 1 (by decide)
  obtain ⟨hcode2, -, -, hy2, hx2⟩ := hfields 2 (by decide)
  obtain ⟨hcode3, -⟩ := hfields 3 (by decide)
  obtain ⟨hcode4, -⟩ := hfields 4 (by decide)
  obtain ⟨hcode5, hinv5, hch5, -, -⟩ := hfields 5 (by decide)
  obtain ⟨hcode6, hinv6, hch6, hy6, hx6⟩ := hfields 6 (by decide)
  obtain ⟨hcode7, -, -, hy7, hx7⟩ := hfields 7 (by decide)
  have hword {code : Nat} (hcode : code < 8) (inv : Bool) (ch y x : Byte) :
      Code.words [packRequest (BitVec.ofNat 3 code) inv ch y x] =
        .words [requestNumber code 0 inv.toNat ch.toNat y.toNat x.toNat] := by
    rw [packRequest_eq_requestNumber hcode]
  refine ⟨decodeRequest_initialise hcode0 ws, decodeRequest_probe hcode1 ws, ?_, decodeRequest_clearAll hcode3 ws,
    decodeRequest_fillAll hcode4 ws, ?_, fun hlen => ?_, ?_, hword (code := 0) (by decide) false 0 0 0,
    hword (code := 1) (by decide) false 0 0 0, hword (code := 2) (by decide) false 0 y x,
    hword (code := 3) (by decide) false 0 0 0, hword (code := 4) (by decide) false 0 0 0,
    hword (code := 5) (by decide) inv ch 0 0, fun text hlen => ?_, hword (code := 7) (by decide) false 0 y x⟩
  · rw [decodeRequest_setCursor hcode2, hx2, hy2]
  · rw [decodeRequest_drawGlyph hcode5, hch5, hinv5]
  · rw [decodeRequest_drawText hcode6 (by rwa [hch6]), hch6, hx6, hy6, hinv6]
    rfl
  · rw [decodeRequest_drawBitmap hcode7, hx7, hy7]
  · have hhead := packRequest_eq_requestNumber (code := 6) (by decide) inv (BitVec.ofNat 8 text.length) y x
    rw [BitVec.toNat_ofNat, Nat.mod_eq_of_lt (by omega)] at hhead
    rw [encode, ← hhead, List.map_congr_left fun c _ => (packCharacter_eq_zeroExtend c).symm]
    rfl

/-! ## The bits an operation uses (R82, R83) -/

/-- The code is always used, so it is the same after the masking. -/
theorem fieldCode_and_usedBits (w : Word) (c : BitVec 3) : fieldCode (w &&& usedBits c) = fieldCode w := by
  have hmask : ∀ c, fieldCode (usedBits c) = BitVec.allOnes 3 := by decide
  rw [fieldCode_and, hmask, BitVec.and_allOnes]

section UsedBits
variable {w : Word}

/-- INITIALIZE, PROBE, CLEAR_ALL and FILL_ALL use the code alone. -/
theorem and_usedBits_code (h : fieldCode w = 0 ∨ fieldCode w = 1 ∨ fieldCode w = 3 ∨ fieldCode w = 4) :
    w &&& usedBits (fieldCode w) = packRequest (fieldCode w) false 0#8 0#8 0#8 := by
  have hmask : usedBits (fieldCode w) = packRequest (BitVec.allOnes 3) false 0#8 0#8 0#8 := by
    rcases h with h | h | h | h <;> rw [h] <;> rfl
  rw [hmask, and_packRequest, BitVec.and_allOnes, Bool.and_false]
  simp only [BitVec.and_zero]

/-- SET_CURSOR and DRAW_BITMAP use the two position fields too. -/
theorem and_usedBits_position (h : fieldCode w = 2 ∨ fieldCode w = 7) :
    w &&& usedBits (fieldCode w) = packRequest (fieldCode w) false 0#8 (fieldY w) (fieldX w) := by
  have hmask : usedBits (fieldCode w) =
      packRequest (BitVec.allOnes 3) false 0#8 (BitVec.allOnes 8) (BitVec.allOnes 8) := by
    rcases h with h | h <;> rw [h] <;> rfl
  rw [hmask, and_packRequest, Bool.and_false, BitVec.and_zero]
  simp only [BitVec.and_allOnes]

/-- DRAW_GLYPH uses the character and the invert flag too. -/
theorem and_usedBits_glyph (h : fieldCode w = 5) :
    w &&& usedBits (fieldCode w) = packRequest (fieldCode w) (fieldInv w) (fieldCh w) 0#8 0#8 := by
  have hmask : usedBits (fieldCode w) = packRequest (BitVec.allOnes 3) true (BitVec.allOnes 8) 0#8 0#8 := by
    rw [h]
    rfl
  rw [hmask, and_packRequest, Bool.and_true]
  simp only [BitVec.and_allOnes, BitVec.and_zero]

/-- DRAW_TEXT uses all but the reserved bits. -/
theorem and_usedBits_text (h : fieldCode w = 6) :
    w &&& usedBits (fieldCode w) = packRequest (fieldCode w) (fieldInv w) (fieldCh w) (fieldY w) (fieldX w) := by
  have hmask : usedBits (fieldCode w) =
      packRequest (BitVec.allOnes 3) true (BitVec.allOnes 8) (BitVec.allOnes 8) (BitVec.allOnes 8) := by
    rw [h]
    rfl
  rw [hmask, and_packRequest, Bool.and_true]
  simp only [BitVec.and_allOnes]

end UsedBits

/-- The decoder reads the used bits alone (R82, R83). -/
theorem decodeRequest_and_usedBits (w : Word) (ws : List Word) :
    decodeRequest ((w &&& usedBits (fieldCode w)) :: ws) = decodeRequest (w :: ws) := by
  have hcode := fieldCode_and_usedBits w (fieldCode w)
  rcases code_cases (fieldCode w) with hc | hc | hc | hc | hc | hc | hc | hc
  · rw [decodeRequest_initialise (hcode.trans hc), decodeRequest_initialise hc]
  · rw [decodeRequest_probe (hcode.trans hc), decodeRequest_probe hc]
  · rw [decodeRequest_setCursor (hcode.trans hc), decodeRequest_setCursor hc, and_usedBits_position (.inl hc),
      fieldX_pack, fieldY_pack]
  · rw [decodeRequest_clearAll (hcode.trans hc), decodeRequest_clearAll hc]
  · rw [decodeRequest_fillAll (hcode.trans hc), decodeRequest_fillAll hc]
  · rw [decodeRequest_drawGlyph (hcode.trans hc), decodeRequest_drawGlyph hc, and_usedBits_glyph hc, fieldCh_pack,
      fieldInv_pack]
  · rw [and_usedBits_text hc]
    simp only [decodeRequest, fieldCode_pack, fieldInv_pack, fieldCh_pack, fieldY_pack, fieldX_pack]
  · rw [decodeRequest_drawBitmap (hcode.trans hc), decodeRequest_drawBitmap hc, and_usedBits_position (.inr hc),
      fieldX_pack, fieldY_pack]

/-- What is decoded is encoded as the words with every bit that is not used 0 (R82, R84). -/
theorem encode_of_decodeRequest {w : Word} {cs : List Word} {i : Instr} (h : decodeRequest (w :: cs) = .ok (i, [])) :
    encode i = .words ((w &&& usedBits (fieldCode w)) :: cs.map (· &&& 0xFF)) := by
  rcases code_cases (fieldCode w) with hc | hc | hc | hc | hc | hc | hc | hc
  · cases (decodeRequest_initialise hc cs).symm.trans h
    rw [and_usedBits_code (.inl hc), hc]
    rfl
  · cases (decodeRequest_probe hc cs).symm.trans h
    rw [and_usedBits_code (.inr (.inl hc)), hc]
    rfl
  · cases (decodeRequest_setCursor hc cs).symm.trans h
    rw [and_usedBits_position (.inl hc), hc]
    rfl
  · cases (decodeRequest_clearAll hc cs).symm.trans h
    rw [and_usedBits_code (.inr (.inr (.inl hc))), hc]
    rfl
  · cases (decodeRequest_fillAll hc cs).symm.trans h
    rw [and_usedBits_code (.inr (.inr (.inr hc))), hc]
    rfl
  · cases (decodeRequest_drawGlyph hc cs).symm.trans h
    rw [and_usedBits_glyph hc, hc]
    rfl
  · have hlen := length_of_decodeRequest_drawText hc h
    have hdecode := decodeRequest_drawText_append hc hlen []
    rw [List.append_nil] at hdecode
    cases hdecode.symm.trans h
    rw [and_usedBits_text hc, hc, encode, List.length_map, hlen, BitVec.ofNat_toNat, BitVec.setWidth_eq,
      map_packCharacter_fieldX]
  · cases (decodeRequest_drawBitmap hc cs).symm.trans h
    rw [and_usedBits_position (.inr hc), hc]
    rfl

/-- What is decoded is an operation with a text of at most 255 characters (R83, R84). -/
theorem decodeRequest_total (w : Word) {cs : List Word} (hlen : cs.length = charactersAfter w) (rest : List Word) :
    ∃ i, i.place = .request ∧ i.wf = true ∧ decodeRequest (w :: cs ++ rest) = .ok (i, rest) := by
  by_cases h : fieldCode w = 6
  · have hch := (fieldCh w).isLt
    rw [charactersAfter, if_pos h] at hlen
    refine ⟨_, rfl, ?_, decodeRequest_drawText_append h hlen rest⟩
    simp only [Instr.wf, List.length_map, decide_eq_true_eq]
    omega
  · rw [charactersAfter, if_neg h, List.length_eq_zero_iff] at hlen
    subst hlen
    rcases code_cases (fieldCode w) with hc | hc | hc | hc | hc | hc | hc | hc
    · exact ⟨_, rfl, rfl, decodeRequest_initialise hc rest⟩
    · exact ⟨_, rfl, rfl, decodeRequest_probe hc rest⟩
    · exact ⟨_, rfl, rfl, decodeRequest_setCursor hc rest⟩
    · exact ⟨_, rfl, rfl, decodeRequest_clearAll hc rest⟩
    · exact ⟨_, rfl, rfl, decodeRequest_fillAll hc rest⟩
    · exact ⟨_, rfl, rfl, decodeRequest_drawGlyph hc rest⟩
    · exact absurd hc h
    · exact ⟨_, rfl, rfl, decodeRequest_drawBitmap hc rest⟩

/-- Settles O4: the decoder reads the used bits alone, and encoding what it read gives those bits back. -/
theorem decodingIsTotalAndIgnoresUnusedBits : Obligations.DecodingIsTotalAndIgnoresUnusedBits := by
  refine ⟨fun w cs rest hlen => decodeRequest_total w hlen rest, fun w w' ws hagree => ?_,
    fun i hwf hplace => decode_encode_of_request hwf hplace, fun w cs i hdecode => ?_⟩
  · have hcode : fieldCode w = fieldCode w' := by
      rw [← fieldCode_and_usedBits w (fieldCode w), hagree, fieldCode_and_usedBits]
    rw [← decodeRequest_and_usedBits w, hagree, hcode, decodeRequest_and_usedBits]
  · rw [encode_of_decodeRequest hdecode, Code.words.injEq, List.cons.injEq]
    have hself : cs.map (· &&& 0xFF) = cs ↔ ∀ c ∈ cs, c &&& 0xFF = c := by
      simpa using List.map_eq_map_iff (f := (· &&& (0xFF : Word))) (g := id) (l := cs)
    rw [hself]

end Sys2Proof.Statements
end

section
/-! PROOF. The worked request words (R85), the classes of wire units (R86 to R92, R98) and the command bytes of a
position (R94, R95), as numbers. -/

namespace Sys2Proof

/-! ## The three classes of command bytes (R88 to R90) -/

theorem isPageSel_iff (b : Byte) : b.extractLsb' 3 5 = 0b10110#5 ↔ 0xB0 ≤ b.toNat ∧ b.toNat ≤ 0xB7 := by
  have := b.isLt
  rw [← BitVec.toNat_inj, BitVec.extractLsb'_toNat, BitVec.toNat_ofNat, Nat.shiftRight_eq_div_pow]
  omega

theorem highNibble_iff (b : Byte) (n : BitVec 4) : b.extractLsb' 4 4 = n ↔ b.toNat / 16 = n.toNat := by
  have := b.isLt
  rw [← BitVec.toNat_inj, BitVec.extractLsb'_toNat, Nat.shiftRight_eq_div_pow]
  omega

/-- The operand of a command byte is what it has over the base of its class. -/
theorem lowBits_eq {b : Byte} {base n : Nat} (hbase : base % 2 ^ n = 0) (hle : base ≤ b.toNat) :
    b.extractLsb' 0 n = BitVec.ofNat n (b.toNat - base) := by
  apply BitVec.eq_of_toNat_eq
  rw [BitVec.extractLsb'_toNat, Nat.shiftRight_zero, BitVec.toNat_ofNat]
  obtain ⟨k, hk⟩ := Nat.dvd_of_mod_eq_zero hbase
  have hsplit : b.toNat = (b.toNat - base) + 2 ^ n * k := by omega
  conv_lhs => rw [hsplit, Nat.add_mul_mod_self_left]

/-- The command bytes by their ranges (R88 to R90, R98). -/
theorem decodeCursorCommand_ranges (b : Byte) : decodeCursorCommand b =
    if 0xB0 ≤ b.toNat ∧ b.toNat ≤ 0xB7 then .ok (.pageSel (BitVec.ofNat 3 (b.toNat - 0xB0)))
    else if b.toNat ≤ 0x0F then .ok (.colLo (BitVec.ofNat 4 b.toNat))
    else if 0x10 ≤ b.toNat ∧ b.toNat ≤ 0x1F then .ok (.colHi (BitVec.ofNat 4 (b.toNat - 0x10)))
    else .error .noSuchCommand := by
  have hlo : b.toNat / 16 = (0x0#4).toNat ↔ b.toNat ≤ 0x0F := by
    change _ = 0 ↔ _
    omega
  have hhi : b.toNat / 16 = (0x1#4).toNat ↔ 0x10 ≤ b.toNat ∧ b.toNat ≤ 0x1F := by
    change _ = 1 ↔ _
    omega
  simp only [decodeCursorCommand, isPageSel_iff, highNibble_iff, hlo, hhi]
  split
  · next h => rw [lowBits_eq (base := 0xB0) (by decide) h.1]
  · split
    · rw [lowBits_eq (base := 0) (by decide) (Nat.zero_le _), Nat.sub_zero]
    · split
      · next h => rw [lowBits_eq (base := 0x10) (by decide) h.1]
      · rfl

end Sys2Proof

namespace Sys2Proof.Statements

open Sys2Proof.Machine

/-- Settles O1: the listed words are what the encoder writes, and reading them back is the round trip (O3). -/
theorem workedRequestWords : Obligations.WorkedRequestWords := by
  intro row hrow
  have hworked : encode row.1 = .words row.2 ∧ row.1.wf = true ∧ row.1.place = .request := by
    revert row
    decide
  obtain ⟨hencode, hwf, hplace⟩ := hworked
  exact ⟨hencode, hencode ▸ decode_encode_of_request hwf hplace⟩

/-- Settles O5: the control byte must be the one of the origin; then a command byte is classified by its range. -/
theorem unitsAreClassified : Obligations.UnitsAreClassified := by
  intro b c
  refine ⟨?_, decodeUnit_cfg b, decodeUnit_data b, fun hctrl => ⟨if_neg hctrl, if_neg hctrl⟩, fun hctrl => if_neg hctrl⟩
  have hcursor : decodeUnit .cursor 0x00 b = decodeCursorCommand b := rfl
  rw [hcursor, decodeCursorCommand_ranges]

/-- Settles O6: the bytes as numbers; a byte is its two nibbles. -/
theorem positionBytes : Obligations.PositionBytes := by
  refine ⟨fun c => ⟨colLoByte_number c, colHiByte_number c⟩, ?_, pageByte_number, fun r hr => ?_⟩
  · decide
  · rw [pageByte_number, Nat.mod_eq_of_lt hr]

end Sys2Proof.Statements
end

section
/-! PROOF. How long the expansions are (R93), and how the expansion of a text is made of a cursor-set and glyphs (R101,
R153). -/

namespace Sys2Proof.Machine

/-- FONT_FIRST and FONT_LAST as numbers (R152). -/
theorem supported_iff (ch : Byte) : supported ch = true ↔ 32 ≤ ch.toNat ∧ ch.toNat ≤ 122 := by
  rw [supported, Bool.and_eq_true, decide_eq_true_iff, decide_eq_true_iff]
  rfl

@[simp] theorem cursorUnits_length (x y : Nat) : (cursorUnits x y).length = 3 := rfl

@[simp] theorem glyphUnits_length (ch : Byte) (inv : Bool) : (glyphUnits ch inv).length = 7 := by
  simp [glyphUnits, glyphBytes]

@[simp] theorem cellUnits_length (x y : Byte) (col row : Fin 5) : (cellUnits x y col row).length = 11 := by
  simp [cellUnits]

/-- 25 cells of 11 transactions. -/
@[simp] theorem bitmapUnits_length (x y : Byte) : (bitmapUnits x y).length = 275 := by
  simp [bitmapUnits, List.length_flatMap]

theorem flatMap_glyphUnits_length (text : List Byte) (inv : Bool) :
    (text.flatMap (glyphUnits · inv)).length = 7 * text.length := by
  simp [List.length_flatMap, Nat.mul_comm]

theorem expand_initialise :
    expand (latch 0 0 0 0 false []) = Config.initSeq.map plannedCfg ++ cursorUnits 0 0 := rfl

theorem expand_glyph (ch : Byte) (inv : Bool) :
    expand (latch 5 0 0 ch inv []) = if supported ch then glyphUnits ch inv else [] := rfl

theorem expand_text (x y : Byte) (inv : Bool) (text : List Byte) :
    expand (latch 6 x y 0 inv text) =
      cursorUnits x.toNat y.toNat ++ (drawable text).flatMap (glyphUnits · inv) := rfl

theorem drawable_append {text : List Byte} (h : ∀ d ∈ text, supported d = true) (more : List Byte) :
    drawable (text ++ more) = text ++ drawable more := List.takeWhile_append_of_pos h

theorem drawable_of_supported {text : List Byte} (h : ∀ d ∈ text, supported d = true) : drawable text = text :=
  List.takeWhile_eq_self_iff.2 h

/-- One more character is drawn as DRAW_GLYPH draws it, and not at all where DRAW_GLYPH draws nothing (R152, R153). -/
theorem flatMap_drawable_singleton (c : Byte) (inv : Bool) :
    (drawable [c]).flatMap (glyphUnits · inv) = expand (latch 5 0 0 c inv []) := by
  rw [expand_glyph]
  cases hc : supported c <;> simp [drawable, hc]

/-- A character behind supported ones (R153). -/
theorem expand_text_append (x y c : Byte) (inv : Bool) {text : List Byte} (h : ∀ d ∈ text, supported d = true) :
    expand (latch 6 x y 0 inv (text ++ [c])) =
      expand (latch 6 x y 0 inv text) ++ expand (latch 5 0 0 c inv []) := by
  rw [expand_text, expand_text, drawable_append h, drawable_of_supported h, List.flatMap_append,
    flatMap_drawable_singleton, List.append_assoc]

end Sys2Proof.Machine

namespace Sys2Proof.Statements

open Sys2Proof.Machine

/-- Settles O8: the lengths of the parts, added up as each operation's expansion is made of them. -/
theorem expansionLengths : Obligations.ExpansionLengths := by
  refine ⟨initLen_ge, fun i op hlatch => ?_⟩
  cases i <;> cases hlatch
  case initialise => rw [expand_initialise, List.length_append, List.length_map, cursorUnits_length, Config.initLen]
  case probe => rfl
  case setCursor x y => exact cursorUnits_length _ _
  case clearAll => exact List.length_replicate
  case fillAll => exact List.length_replicate
  case drawGlyph ch inv =>
    rw [expand_glyph, apply_ite List.length, glyphUnits_length, if_congr (supported_iff ch) rfl rfl]
    rfl
  case drawText text x y inv =>
    rw [expand_text, List.length_append, flatMap_glyphUnits_length]
    rfl
  case drawBitmap x y => exact bitmapUnits_length x y

/-- Settles O9: a text without characters has no glyphs, and the other two are `expand_text_append`. -/
theorem textIsCursorThenGlyphs : Obligations.TextIsCursorThenGlyphs := by
  intro x y c inv text
  have hempty : expand (latch 6 x y 0 inv []) = expand (latch 2 x y 0 false []) := List.append_nil _
  refine ⟨hempty, fun _ => ?_, fun h => expand_text_append x y c inv h⟩
  rw [← hempty]
  exact expand_text_append x y c inv (text := []) (by simp)

end Sys2Proof.Statements
end

section
/-! PROOF. The character words of a DRAW_TEXT (R84): taken one at a time into the latch, they start the operation that
the whole request performs. -/

namespace Sys2Proof.Machine

/-- A waiting block that has taken the characters `cs` into the latch, and waits for `n` more (R84; log 14). -/
def State.withText (s : State) (op : OpLatch) (cs : List Byte) (n : Nat) : State :=
  { s with seq := { s.seq with op := some { op with text := op.text ++ cs }, want := n } }

theorem State.withText_withText (s : State) (op : OpLatch) (cs ds : List Byte) (m n : Nat) :
    (s.withText op cs m).withText { op with text := op.text ++ cs } ds n = s.withText op (cs ++ ds) n := by
  simp [State.withText]

/-- A character that is not the last is only taken into the latch. -/
theorem State.takeCharacter_more {s : State} (op : OpLatch) (c : Byte) (h : 2 ≤ s.seq.want) :
    s.takeCharacter op c = s.withText op [c] (s.seq.want - 1) :=
  if_neg (show s.seq.want - 1 ≠ 0 by omega)

/-- The last one starts the operation. -/
theorem State.takeCharacter_last {s : State} (op : OpLatch) (c : Byte) (h : s.seq.want = 1) :
    s.takeCharacter op c = ((s.withText op [c] 0).advance { op with text := op.text ++ [c] }).run := by
  have hzero : s.seq.want - 1 = 0 := by omega
  rw [State.takeCharacter, if_pos hzero, hzero]
  rfl

section Awaiting
variable {s : State} {op : OpLatch} (hbusy : s.seq.busy = true) (hop : s.seq.op = some op) (hbus : s.port.bus = none)
include hbusy hop hbus

theorem exec_charWord_more (h : 2 ≤ s.seq.want) (c : Byte) :
    exec (.charWord c) s = .next (s.withText op [c] (s.seq.want - 1)) := by
  rw [← State.takeCharacter_more op c h]
  exact execCharWord_awaited hbus hbusy hop (by omega) c

theorem exec_charWord_last (h : s.seq.want = 1) (c : Byte) :
    exec (.charWord c) s = .next ((s.withText op [c] 0).advance { op with text := op.text ++ [c] }).run := by
  rw [← State.takeCharacter_last op c h]
  exact execCharWord_awaited hbus hbusy hop (by omega) c

end Awaiting

/-- A block that awaits none, or has a transaction outstanding, does not take it (R23; log 16). -/
theorem exec_charWord_held {s : State} (hbusy : s.seq.busy = true) (h : s.seq.want = 0 ∨ s.port.bus ≠ none) (c : Byte) :
    exec (.charWord c) s = .next s := by
  change execCharWord c s = _
  rw [← Option.isSome_iff_ne_none] at h
  unfold execCharWord
  split
  · rw [if_pos h]
  · rfl
  · next hidle => cases hbusy.symm.trans hidle

/-- An idle block has no character words (log 18). -/
theorem exec_charWord_idle {s : State} (hbusy : s.seq.busy = false) (c : Byte) :
    exec (.charWord c) s = .refused .characterOutsideText := by
  change execCharWord c s = _
  rw [execCharWord, hbusy]

/-! ## The operation that the last character starts -/

@[simp] theorem State.advance_answers (s : State) (op : OpLatch) : (s.advance op).port.answers = s.port.answers := by
  unfold State.advance
  split <;> simp

/-- An operation that stands before its first transaction, the transport answering 0 throughout, runs to its end
(R114, R200). -/
theorem Between.advance_run_done {s : State} {op : OpLatch} {l : List Planned} (h : Between s op l) {rest : List Status}
    (hanswers : s.port.answers = List.replicate l.length 0 ++ rest) :
    (s.advance op).run = ((s.deliverAll l).complete op).setAnswers rest := by
  rw [State.run, State.advance_answers, hanswers, h.run_done]

/-- The result of a DRAW_TEXT (R153, R202). -/
theorem resultOf_text {op : OpLatch} (h : op.code = 6) :
    resultOf op = if op.text.all supported then ⟨0, 0⟩ else ⟨2, 0⟩ := by
  cases hall : op.text.all supported <;> simp [resultOf, meetsUnsupported, h, hall] <;> rfl

end Sys2Proof.Machine

namespace Sys2Proof.Statements

open Sys2Proof.Machine

/-- As many character words as are awaited: all of them are in the latch when the last one starts the operation. -/
theorem execAll_charWords {s : State} {op : OpLatch} (hbusy : s.seq.busy = true) (hop : s.seq.op = some op)
    (hbus : s.port.bus = none) (c : Byte) (text : List Byte) (hwant : s.seq.want = text.length + 1) :
    execAll ((c :: text).map .charWord) s =
      .next ((s.withText op (c :: text) 0).advance { op with text := op.text ++ c :: text }).run := by
  induction text generalizing s op c with
  | nil =>
    rw [List.map_singleton, execAll_cons_next (exec_charWord_last hbusy hop hbus hwant c)]
    rfl
  | cons d text ih =>
    have hwant' : s.seq.want - 1 = text.length + 1 := by simp [hwant]
    rw [List.map_cons, execAll_cons_next (exec_charWord_more hbusy hop hbus (by simp [hwant]) c),
      ih (s := s.withText op [c] (s.seq.want - 1)) hbusy rfl hbus d hwant', State.withText_withText]
    simp

/-- Settles O30: the latch of the waiting block ends as the one of the whole request. -/
theorem characterWordsMakeTheText : Obligations.CharacterWordsMakeTheText := by
  constructor
  · intro s w text hidle _ hne hlen
    obtain ⟨-, hbus⟩ := State.idle_iff.1 hidle
    cases text with
    | nil => exact absurd rfl hne
    | cons c text =>
      rw [execAll_charWords (s := s.acceptTextHeader w) rfl rfl hbus c text hlen.symm, exec_of_latchOf rfl,
        State.perform, if_pos hidle]
      rfl
  · intro w ws hcode hch
    rw [decodeRequest_drawText hcode (by simp [hch]), hch]
    rfl

/-- Settles O31: the four cases of a character word; the last awaited one leaves the block before the first transaction
of the operation. -/
theorem characterWordIsTakenWhereItIsAwaited : Obligations.CharacterWordIsTakenWhereItIsAwaited := by
  intro s c op
  refine ⟨fun hbusy hop hwant hbus => exec_charWord_more hbusy hop hbus hwant c,
    fun hbusy hop hwant hcode hidx hbus rest hanswers => ?_, fun hbusy hheld => exec_charWord_held hbusy hheld c,
    fun hbusy => exec_charWord_idle hbusy c⟩
  have hbetween : Between (s.withText op [c] 0) { op with text := op.text ++ [c] }
      (expand { op with text := op.text ++ [c] }) :=
    ⟨hbusy, rfl, hbus, by rw [State.withText, hidx, List.drop_zero]⟩
  have hready : (s.seq.ready || (op.code = 0 : Bool)) = s.seq.ready := by simp [hcode]
  refine ⟨_, (exec_charWord_last hbusy hop hbus hwant c).trans
    (congrArg _ (hbetween.advance_run_done hanswers)), ?_, ?_⟩
  · rw [State.setAnswers_seq, State.complete_seq, State.deliverAll_seq, resultOf_text (by exact hcode)]
    simp only [State.withText, ended, hready, hidx, Nat.zero_add]
  · rw [State.setAnswers_m, State.complete_m, State.deliverAll_hist]
    rfl

end Sys2Proof.Statements
end

section
/-! PROOF. A consistent machine has a next state whatever comes next (R83, R185, R200): one lemma for each situation of
the sequencer; `Presents.step` is the third. -/

namespace Sys2Proof.Machine

/-- What an idle block reads from its request port is an operation or the request word of a DRAW_TEXT (R83). -/
theorem AtRest.step_next {s : State} (h : AtRest s) : ∃ t, step s = .next t := by
  cases hreq : s.port.req with
  | nil => exact ⟨s, step_noRequest h.bus h.busy hreq⟩
  | cons w rest =>
    cases hdecode : decodeRequest (w :: rest) with
    | ok r =>
      obtain ⟨op, hop⟩ := latchOf_decodeRequest hdecode
      exact ⟨_, (step_request h.bus h.busy (hreq ▸ hdecode)).trans (exec_of_latchOf hop _)⟩
    | error e => exact ⟨_, step_textHeader h.bus h.busy hreq hdecode⟩

/-- A waiting block takes the character word on its port, if there is one (R84). -/
theorem AwaitsCharacters.step_next {s : State} {op : OpLatch} (h : AwaitsCharacters s op) : ∃ t, step s = .next t := by
  cases hreq : s.port.req with
  | nil => exact ⟨s, step_noCharacter h.bus h.busy h.latched h.want hreq⟩
  | cons w rest => exact ⟨_, step_character h.bus h.busy h.latched h.want hreq⟩

end Sys2Proof.Machine

namespace Sys2Proof.Statements

open Sys2Proof.Machine

/-- Settles O54: there is a next state in each of the three situations (`State.consistent_cases`). -/
theorem consistentMachineNeverStops : Obligations.ConsistentMachineNeverStops := by
  intro s h
  rcases State.consistent_cases h with hrest | ⟨op, hawaits⟩ | ⟨op, p, hpresents⟩
  · exact hrest.step_next
  · exact hawaits.step_next
  · exact ⟨s.run, hpresents.step⟩

end Sys2Proof.Statements
end

section
/-! PROOF. What a data unit and a failed write do at the receiver in every state: the marks they add, and the bytes of
the surface they leave (R179, R183, R184). -/

namespace Sys2Proof.Machine

theorem Memory.read_put_of_ne {m : Memory} {p : BitVec 3} {c : BitVec 7} {a : Nat} (h : a ≠ lin p c) (v : Byte) :
    (m.put p c v).read a = m.read a := by
  rw [Memory.put, Memory.read_write, if_neg h.symm]

/-! ## A failed write (R184) -/

/-- It adds BusFailure and no other mark. -/
theorem rxFailedWrite_faults (o : Origin) (s : State) :
    (rxFailedWrite o s).m.faults = s.m.faults.addBusFailure := by
  have hreact : (s.reacting fun s => s.disturbRx o).m.faults = s.m.faults := State.reacting_faults rfl
  rw [rxFailedWrite, State.setFaults_faults, hreact]

section Disturbed
variable {s : State} {o : Origin} {a : Nat} (hcursor : a ≠ lin s.rx.page s.rx.col)
  (hdrawn : o = .data → s.seq.ready = false →
    a ≠ lin (Config.freePosPage s.m.draws) (Config.freePosCol s.m.draws))
include hcursor hdrawn

/-- It can reach the byte at the cursor and, for a data unit before INITIALIZE, one at the drawn position (log 10). -/
theorem State.disturbRx_read : (s.disturbRx o).rx.fb.read a = s.rx.fb.read a := by
  simp only [State.disturbRx, State.drew_rx, State.setRx_rx]
  split
  · next h =>
    obtain ⟨hdata, hready⟩ : o = .data ∧ s.seq.ready = false := by simpa using h
    rw [Memory.read_put_of_ne (hdrawn hdata hready), Memory.read_put_of_ne hcursor]
  · rw [Memory.read_put_of_ne hcursor]

theorem rxFailedWrite_read (hknown : s.rxLost = false) : (rxFailedWrite o s).rx.fb.read a = s.rx.fb.read a := by
  rw [rxFailedWrite, State.setFaults_rx, State.reacting_known hknown, State.disturbRx_read hcursor hdrawn]

end Disturbed

/-- The engine hands a failed write to the receiver (R113, R184). -/
theorem State.settle_failed (s : State) (c p : Byte) (o : Origin) {st : Status} (hst : st ≠ 0) :
    s.settle (.ofUnit c p o) st =
      rxFailedWrite o (({ s with port := { s.port with bus := none } } : State).record (.ofUnit c p o) st) :=
  if_neg hst

/-! ## A delivered data unit (R179, R183) -/

/-- On a ready display it adds no mark. -/
theorem rxDataWr_faults_ready {s : State} (hready : s.seq.ready = true) (d : Byte) :
    (rxDataWr d s).m.faults = s.m.faults := by
  rw [rxDataWr, if_pos hready]
  exact State.reacting_faults (State.advanceCursor_faults (s.storeAtCursor d))

section Surface
variable {s : State} (hknown : s.rxLost = false) (d : Byte)
include hknown

theorem rxDataWr_fb_ready (hready : s.seq.ready = true) :
    (rxDataWr d s).rx.fb = s.rx.fb.put s.rx.page s.rx.col d := by
  rw [rxDataWr_known hready hknown, State.advanceCursor_fb]
  rfl

theorem rxDataWr_at_ready (hready : s.seq.ready = true) :
    (rxDataWr d s).rx.fb.at s.rx.page s.rx.col = some d := by
  rw [rxDataWr_fb_ready hknown d hready, Memory.at_put, if_pos ⟨rfl, rfl⟩]

theorem rxDataWr_read_ready (hready : s.seq.ready = true) {a : Nat} (hcursor : a ≠ lin s.rx.page s.rx.col) :
    (rxDataWr d s).rx.fb.read a = s.rx.fb.read a := by
  rw [rxDataWr_fb_ready hknown d hready, Memory.read_put_of_ne hcursor]

/-- Before INITIALIZE it stores at the position the model draws, and nowhere else (log 8). -/
theorem rxDataWr_read_notReady (hready : s.seq.ready = false) {a : Nat}
    (hdrawn : a ≠ lin (Config.freePosPage s.m.draws) (Config.freePosCol s.m.draws)) :
    (rxDataWr d s).rx.fb.read a = s.rx.fb.read a := by
  simp only [rxDataWr, hready, State.reacting_known hknown]
  exact Memory.read_put_of_ne hdrawn _

end Surface

end Sys2Proof.Machine
end

section
/-! PROOF. How an operation ends (R114, R200 to R207): its transport answers 0 to the end, or fails at one of its units,
or falls silent there. Each is the closed form of a run (`Between.run_done`, `run_fail`, `run_held`), read field by
field. -/

namespace Sys2Proof.Machine

/-- The latch of code 0 is the one of INITIALIZE (R80, R123). -/
theorem latchOf_code_zero_iff {i : Instr} {op : OpLatch} (h : latchOf i = some op) :
    op.code = 0 ↔ i = .initialise := by
  refine ⟨latchOf_code_zero h, ?_⟩
  rintro rfl
  cases h
  rfl

theorem meetsUnsupported_text (x y : Byte) (inv : Bool) (text : List Byte) :
    meetsUnsupported (latch 6 x y 0 inv text) = !text.all supported := rfl

/-- The text of a DRAW_TEXT is drawn up to its first unsupported character (R153). -/
theorem drawable_append_unsupported {good : List Byte} (hgood : ∀ d ∈ good, supported d = true) {c : Byte}
    (hc : supported c = false) (bad : List Byte) : drawable (good ++ c :: bad) = good := by
  rw [drawable_append hgood, drawable, List.takeWhile_cons_of_neg (by simp [hc]), List.append_nil]

/-- A list is what stands before its `n`-th entry, that entry, and what stands behind it. -/
theorem take_cons_drop_of_getElem? {l : List Planned} {n : Nat} {p : Planned} (h : l[n]? = some p) :
    l = l.take n ++ p :: l.drop (n + 1) ∧ (l.take n).length = n := by
  obtain ⟨hn, rfl⟩ := List.getElem?_eq_some_iff.1 h
  exact ⟨by rw [← List.drop_eq_getElem_cons hn, List.take_append_drop], List.length_take_of_le hn.le⟩

section Entry
variable {s : State} {op : OpLatch} {n : Nat} {p : Planned} (hentry : (expand op)[n]? = some p)
include hentry

/-- The sequencer before the `n`-th unit is presented. -/
theorem State.deliverTake_seq : ((s.accept op 0).deliverAll ((expand op).take n)).seq =
    { s.seq with busy := true, op := some op, idx := n, want := 0 } := by
  rw [State.deliverAll_seq, (take_cons_drop_of_getElem? hentry).2, State.accept_idx, Nat.zero_add]
  rfl

variable (hidle : s.idle = true)
include hidle

theorem Between.accept_entry :
    Between (s.accept op 0) op ((expand op).take n ++ p :: (expand op).drop (n + 1)) := by
  rw [← (take_cons_drop_of_getElem? hentry).1]
  exact Between.accept hidle op 0

/-- An operation whose `n`-th unit fails (R114, R201). -/
theorem State.perform_fail {st : Status} (hst : st ≠ 0) {rest : List Status}
    (hanswers : s.port.answers = List.replicate n 0 ++ st :: rest) :
    s.perform op = (((((s.accept op 0).deliverAll ((expand op).take n)).present p).settle p.txn st).raise
      (.busFailure st)).setAnswers rest := by
  have hrun := (Between.accept_entry hentry hidle).run_fail hst rest
  rwa [(take_cons_drop_of_getElem? hentry).2, ← hanswers, ← State.perform_idle hidle] at hrun

/-- An operation whose `n`-th unit is not answered (R113, R240). -/
theorem State.perform_held (hanswers : s.port.answers = List.replicate n 0) :
    s.perform op = (((s.accept op 0).deliverAll ((expand op).take n)).present p).setAnswers [] := by
  have hrun := (Between.accept_entry hentry hidle).run_held
  rwa [(take_cons_drop_of_getElem? hentry).2, ← hanswers, ← State.perform_idle hidle] at hrun

end Entry

/-- A write the block issues carries a unit to ADDR8 (R8, R86). -/
theorem Txn.eq_ofUnit_of_legal {t : Txn} (hlegal : t.legal = true) (hkind : t.kind = .write) :
    ∃ c p, t = .ofUnit c p t.origin := by
  obtain ⟨k, a, u, o⟩ := t
  cases hkind
  cases u with
  | none => simp [Txn.legal] at hlegal
  | some u =>
    obtain ⟨ha, -⟩ : a = Config.addr8 ∧ _ := by simpa [Txn.legal] using hlegal
    exact ⟨u.1, u.2, by rw [ha]; rfl⟩

/-- A write of an expansion that fails adds BusFailure (R184, R201). -/
theorem State.settle_failed_busFailure {t : Txn} (hlegal : t.legal = true) (hkind : t.kind = .write) (s : State)
    {st : Status} (hst : st ≠ 0) : (s.settle t st).m.faults.busFailure = true := by
  obtain ⟨c, p, ht⟩ := Txn.eq_ofUnit_of_legal hlegal hkind
  rw [ht, State.settle_failed s c p _ hst, rxFailedWrite_faults]
  rfl

/-- The only probe of an expansion is the one unit of PROBE (R93, R124). -/
theorem probe_of_getElem?_expand {op : OpLatch} {n : Nat} {p : Planned} (hentry : (expand op)[n]? = some p)
    (hkind : p.txn.kind = .probe) : n = 0 ∧ p = ⟨.probe, false⟩ := by
  rcases mem_expand (List.mem_of_getElem? hentry) with ⟨hwrite, -⟩ | ⟨hexpand, hp⟩
  · cases hkind.symm.trans hwrite
  · have hlt := (List.getElem?_eq_some_iff.1 hentry).1
    rw [hexpand, List.length_singleton] at hlt
    exact ⟨by omega, hp⟩

end Sys2Proof.Machine

namespace Sys2Proof.Statements

open Sys2Proof.Machine

/-- Settles O12: the closed form of a run that is answered 0 throughout (`State.perform_done`), field by field. -/
theorem operationsComplete : Obligations.OperationsComplete := by
  intro i op s rest hlatch ⟨hidle, hanswers⟩
  refine ⟨_, (exec_of_latchOf hlatch s).trans (congrArg _ (State.perform_done hidle rfl hanswers)), ?_,
    State.done_port hidle op _ rest, ?_⟩
  · rw [State.done_seq, decide_eq_decide.2 (latchOf_code_zero_iff hlatch)]
    rfl
  · rw [State.done_m, State.deliverAll_hist]
    rfl

/-- Settles O13: the closed form of a run that fails (`State.perform_fail`). A write of an expansion is legal, so its
failure is the receiver's; a probe is the whole expansion, so nothing came before it. -/
theorem firstFailureEndsTheOperation : Obligations.FirstFailureEndsTheOperation := by
  intro i op s n p st rest hlatch hentry hst hidle hanswers
  obtain ⟨-, hbus⟩ := State.idle_iff.1 hidle
  refine ⟨_, (exec_of_latchOf hlatch s).trans (congrArg _ (State.perform_fail hentry hidle hst hanswers)), ?_, ?_, ?_,
    fun hwrite => ?_, fun hprobe => ?_⟩
  · rw [State.setAnswers_seq, State.raise, State.endWith, State.settle_seq, State.present_seq,
      State.deliverTake_seq hentry]
    rfl
  · simp only [State.setAnswers, State.raise, State.endWith, State.settle_port, State.present_port,
      State.deliverAll_bus (s.accept op 0) _ hbus]
    rfl
  · rw [State.setAnswers_m, State.raise, State.endWith_m, State.settle_hist, State.present_hist, State.deliverAll_hist]
    rfl
  · exact State.settle_failed_busFailure (legal_of_mem_expand (List.mem_of_getElem? hentry)) hwrite _ hst
  · obtain ⟨rfl, rfl⟩ := probe_of_getElem?_expand hentry hprobe
    exact ⟨rfl, rfl⟩

/-- Settles O14: the closed form of a run that is held (`State.perform_held`); then a step waits, and a busy block takes
no request (O16). -/
theorem silentTransportHoldsTheBlock : Obligations.SilentTransportHoldsTheBlock := by
  intro i op s n p hlatch hentry hidle hanswers
  obtain ⟨-, hbus⟩ := State.idle_iff.1 hidle
  refine ⟨_, (exec_of_latchOf hlatch s).trans (congrArg _ (State.perform_held hentry hidle hanswers)), ?_, ?_, ?_,
    step_held (State.present_bus _ p) rfl, fun j op' hj => busyBlockTakesNoRequest j op' _ hj ?_⟩
  · rw [State.setAnswers_seq, State.present_seq, State.deliverTake_seq hentry]
  · simp only [State.setAnswers, State.present_port, State.deliverAll_bus (s.accept op 0) _ hbus]
    rfl
  · rw [State.setAnswers_m, State.present_hist, State.deliverAll_hist]
    rfl
  · rw [State.setAnswers_seq, State.present_seq, State.deliverTake_seq hentry]

/-- Settles O29: the units before the unsupported character are the whole expansion; a failure among them ends the
operation (O13), and with none of them failing it completes (O12). -/
theorem busFailureBeforeUnsupportedCharacter : Obligations.BusFailureBeforeUnsupportedCharacter := by
  intro s good bad c x y inv n st rest hgood hc hidle hst hanswers
  have hlength : (expand (latch 6 x y 0 inv (good ++ c :: bad))).length = 3 + 7 * good.length := by
    rw [expand_text, drawable_append_unsupported hgood hc, List.length_append, cursorUnits_length,
      flatMap_glyphUnits_length]
  have hmeets : meetsUnsupported (latch 6 x y 0 inv (good ++ c :: bad)) = true := by
    rw [meetsUnsupported_text]
    simp [hc]
  rcases Nat.lt_or_ge n (3 + 7 * good.length) with hn | hn
  · have hentry := List.getElem?_eq_getElem (hlength ▸ hn)
    obtain ⟨t, hexec, hseq, hport, -⟩ :=
      firstFailureEndsTheOperation (.drawText _ x y inv) _ s n _ st rest rfl hentry hst hidle hanswers
    exact ⟨t, hexec, fun _ => ⟨by rw [hseq]; rfl, by rw [hport]; rfl⟩, fun h => absurd hn (Nat.not_lt.2 h)⟩
  · have hzeros : s.port.answers = List.replicate (3 + 7 * good.length) 0 ++
        (List.replicate (n - (3 + 7 * good.length)) 0 ++ st :: rest) := by
      rw [hanswers, ← List.append_assoc, List.replicate_append_replicate, Nat.add_sub_cancel' hn]
    obtain ⟨t, hexec, hseq, hport, -⟩ :=
      operationsComplete (.drawText _ x y inv) _ s _ rfl ⟨hidle, hlength.symm ▸ hzeros⟩
    refine ⟨t, hexec, fun h => absurd h (Nat.not_lt.2 hn), fun _ => ⟨?_, by rw [hport, hlength]; rfl⟩⟩
    rw [hseq, hmeets]
    rfl

end Sys2Proof.Statements
end

section
/-! PROOF. The micro-operations and the probe by themselves, answered by the transport (40_channel.md): each is the
engine settling one transaction on a free port, and a delivered unit is the wire unit it sends (R110 to R113). -/

namespace Sys2Proof.Machine

/-- CMD never sends a data unit (R99). -/
theorem cmdOrigin_ne_data (s : State) : cmdOrigin s ≠ .data := by
  unfold cmdOrigin
  split
  · split <;> simp
  · simp

theorem deliverable_command_iff {b : Byte} {o : Origin} {st : Status} :
    deliverable (.command b o) st = true ↔ st ≠ 0 ∨ (decodeUnit o 0x00 b).isOk = true := by
  change (decide (st ≠ 0) || _) = true ↔ _
  rw [Bool.or_eq_true, decide_eq_true_iff]
  rfl

section Answered
variable {s : State} (hbus : s.port.bus = none) {st : Status} {as : List Status}

include hbus in
theorem State.freeBus_eq : ({ s with port := { s.port with bus := none } } : State) = s := by
  rw [← hbus]

variable (hanswers : s.port.answers = st :: as)
include hbus hanswers

/-- Before the receiver reacts, the answer is used and the record added (R113). -/
theorem State.performTxn_frame (u : Txn) : RxOnly ((s.setAnswers as).record u st) (s.performTxn u) := by
  have hsettle := (s.setAnswers as).settle_frame u st
  rwa [State.freeBus_eq (s := s.setAnswers as) hbus, ← State.performTxn_answered hbus hanswers] at hsettle

theorem State.performTxn_probe : s.performTxn .probe = (s.setAnswers as).record .probe st := by
  rw [State.performTxn_answered hbus hanswers, State.settle_probe _ _ _ rfl,
    State.freeBus_eq (s := s.setAnswers as) hbus]

theorem State.performTxn_failed (hst : st ≠ 0) (c p : Byte) (o : Origin) :
    s.performTxn (.ofUnit c p o) = rxFailedWrite o ((s.setAnswers as).record (.ofUnit c p o) st) := by
  rw [State.performTxn_answered hbus hanswers, State.settle_failed _ _ _ _ hst,
    State.freeBus_eq (s := s.setAnswers as) hbus]

theorem State.performTxn_delivered (hst : st = 0) (c p : Byte) (o : Origin) :
    s.performTxn (.ofUnit c p o) = receive o c p ((s.setAnswers as).record (.ofUnit c p o) st) := by
  subst hst
  rw [State.performTxn_answered hbus hanswers, State.settle_ofUnit, State.freeBus_eq (s := s.setAnswers as) hbus]

/-- CMD asks the receiver about the unit that the transport answers (R185; log 17). -/
theorem exec_cmd_answered (b : Byte) :
    exec (.cmd b) s = if deliverable (.command b (cmdOrigin s)) st then
      .next (s.performTxn (.command b (cmdOrigin s))) else .refused .unitWithoutMeaning := by
  change execCmd b s = _
  simp only [execCmd, hbus, hanswers]

/-! ## DAT (R111) -/

theorem State.performTxn_data_delivered (hst : st = 0) (d : Byte) :
    s.performTxn (.data d) = rxDataWr d ((s.setAnswers as).record (.data d) st) :=
  State.performTxn_delivered hbus hanswers hst _ _ _

theorem State.performTxn_data_failed (hst : st ≠ 0) (d : Byte) :
    s.performTxn (.data d) = rxFailedWrite .data ((s.setAnswers as).record (.data d) st) :=
  State.performTxn_failed hbus hanswers hst _ _ _

/-- BusFailure when it fails, DataBeforeInit when it is delivered too early (R183, R184; log 23). -/
theorem State.performTxn_data_faults (d : Byte) : (s.performTxn (.data d)).m.faults = { s.m.faults with
    busFailure := s.m.faults.busFailure || decide (st ≠ 0)
    dataBeforeInit := s.m.faults.dataBeforeInit || (decide (st = 0) && !s.seq.ready) } := by
  by_cases hst : st = 0
  · rw [State.performTxn_data_delivered hbus hanswers hst, decide_eq_false (not_not.2 hst), decide_eq_true hst]
    cases hready : s.seq.ready with
    | true =>
      rw [rxDataWr_faults_ready (by exact hready)]
      simp
    | false =>
      rw [rxDataWr_faults_notReady (by exact hready)]
      simp [Marks.addDataBeforeInit]
  · rw [State.performTxn_data_failed hbus hanswers hst, rxFailedWrite_faults, decide_eq_true hst, decide_eq_false hst]
    simp [Marks.addBusFailure]

section Surface
variable (hknown : s.rxLost = false) (d : Byte) {a : Nat} (hcursor : a ≠ lin s.rx.page s.rx.col)
include hknown hcursor

/-- Delivered or failed, it can reach the byte at the cursor of a ready display and no other (R179; log 10). -/
theorem State.performTxn_data_read_ready (hready : s.seq.ready = true) :
    (s.performTxn (.data d)).rx.fb.read a = s.rx.fb.read a := by
  by_cases hst : st = 0
  · rw [State.performTxn_data_delivered hbus hanswers hst]
    exact rxDataWr_read_ready (by exact hknown) d (by exact hready) (by exact hcursor)
  · rw [State.performTxn_data_failed hbus hanswers hst]
    have hnotEarly : s.seq.ready ≠ false := by simp [hready]
    exact rxFailedWrite_read (by exact hcursor) (fun _ h => absurd h hnotEarly) hknown

/-- Before INITIALIZE it can reach the drawn position too (R183; logs 8 and 10). -/
theorem State.performTxn_data_read_notReady (hready : s.seq.ready = false)
    (hdrawn : a ≠ lin (Config.freePosPage s.m.draws) (Config.freePosCol s.m.draws)) :
    (s.performTxn (.data d)).rx.fb.read a = s.rx.fb.read a := by
  by_cases hst : st = 0
  · rw [State.performTxn_data_delivered hbus hanswers hst]
    exact rxDataWr_read_notReady (by exact hknown) d (by exact hready) hdrawn
  · rw [State.performTxn_data_failed hbus hanswers hst]
    exact rxFailedWrite_read (by exact hcursor) (fun _ _ => hdrawn) hknown

end Surface

end Answered

end Sys2Proof.Machine

namespace Sys2Proof.Statements

open Sys2Proof.Machine

/-- Settles O47: a probe has no unit for the receiver to react to (`State.settle_probe`). -/
theorem prbChangesNothingInTheReceiver : Obligations.PrbChangesNothingInTheReceiver := by
  intro s st as hbus hanswers
  exact congrArg Host.Outcome.next (State.performTxn_probe hbus hanswers)

/-- Settles O45: the answered transaction changes the receiver's side alone beyond its record; delivered, the receiver's
reaction is the decoded unit executed; failed, it is `rxFailedWrite`, of an origin other than Data. -/
theorem cmdPerformsOneWrite : Obligations.CmdPerformsOneWrite := by
  intro s b st as hbus hanswers
  have hexec := exec_cmd_answered hbus hanswers b
  have hframe := State.performTxn_frame hbus hanswers (.command b (cmdOrigin s))
  refine ⟨fun hrule => ?_, fun hst hdecode => ?_⟩
  · rw [if_pos (deliverable_command_iff.2 hrule)] at hexec
    refine ⟨_, hexec, hframe.seq, hframe.port, hframe.hist, fun i hst hdecode => ?_, fun hst => ?_,
      fun hst hunmarked a ha => ?_⟩
    · rw [Txn.command, State.performTxn_delivered hbus hanswers hst]
      exact exec_of_decodeUnit hdecode _
    · rw [Txn.command, State.performTxn_failed hbus hanswers hst]
      exact rxFailedWrite_faults _ _
    · rw [Txn.command, State.performTxn_failed hbus hanswers hst]
      exact rxFailedWrite_read (by exact ha) (fun hdata => absurd hdata (cmdOrigin_ne_data s)) hunmarked.rxLost
  · rwa [if_neg (mt deliverable_command_iff.1 (not_or.2 ⟨not_not.2 hst, Bool.eq_false_iff.1 hdecode⟩))] at hexec

/-- Settles O46: the marks, and the bytes out of reach, whether the data unit is delivered or fails; a delivered one
stands where the cursor was. -/
theorem datPerformsOneWrite : Obligations.DatPerformsOneWrite := by
  intro s d st as hbus hanswers
  have hframe := State.performTxn_frame hbus hanswers (.data d)
  refine ⟨_, rfl, hframe.seq, hframe.port, hframe.hist, State.performTxn_data_faults hbus hanswers d,
    fun hunmarked hready => ⟨fun a hcursor => ?_, fun hst => ?_⟩, fun hrange hfailure hready a hcursor hdrawn => ?_⟩
  · exact State.performTxn_data_read_ready hbus hanswers hunmarked.rxLost d hcursor hready
  · rw [State.performTxn_data_delivered hbus hanswers hst]
    exact rxDataWr_at_ready (s := (s.setAnswers as).record (.data d) st) hunmarked.rxLost d hready
  · have hknown : s.rxLost = false := State.rxLost_eq_false_iff.2 ⟨hrange, hfailure, fun _ => hready⟩
    exact State.performTxn_data_read_notReady hbus hanswers hknown d hcursor hready hdrawn

end Sys2Proof.Statements
end

section
/-! PROOF. INITIALIZE and PROBE (R120 to R124). At a known receiver a configuration unit leaves the surface and the
marks, and the last one leaves the fixed configuration (R182); the cursor-set behind them names (0, 0). -/

namespace Sys2Proof.Machine

/-! ## Configuration units (R182) -/

/-- A configuration unit at a receiver whose state is known (R182). -/
theorem rxCfg_known {s : State} (h : s.rxLost = false) (b : Byte) :
    rxCfg b s = (s.setRx { s.rx with
      cfg := if completesInit s then Config.cfgConfigured else Config.cfgStep s.rx.cfg b }).freeCursor :=
  State.reacting_known h _

section Cfg
variable {s : State} (h : s.rxLost = false)
include h

theorem State.deliver_cfg (b : Byte) :
    s.deliver (plannedCfg b) =
      (((({ s with port := { s.port with bus := none } } : State).record (.command b .initCfg) 0).setRx { s.rx with
        cfg := if completesInit s then Config.cfgConfigured else Config.cfgStep s.rx.cfg b }).freeCursor).countUnit :=
  congrArg State.countUnit (rxCfg_known
    (s := ({ s with port := { s.port with bus := none } } : State).record (.command b .initCfg) 0) (by exact h) b)

theorem State.deliver_cfg_fb (b : Byte) : (s.deliver (plannedCfg b)).rx.fb = s.rx.fb := by
  rw [State.deliver_cfg h]
  rfl

theorem State.deliver_cfg_faults (b : Byte) : (s.deliver (plannedCfg b)).m.faults = s.m.faults := by
  rw [State.deliver_cfg h]
  rfl

/-- The last unit of INIT_SEQ leaves the fixed configuration, whatever it was before (R122; log 11). -/
theorem State.deliver_cfg_last (hlast : completesInit s = true) (b : Byte) :
    (s.deliver (plannedCfg b)).rx.cfg = Config.cfgConfigured := by
  rw [State.deliver_cfg h]
  exact if_pos hlast

theorem State.deliverAll_cfg (bs : List Byte) :
    (s.deliverAll (bs.map plannedCfg)).rx.fb = s.rx.fb ∧
      (s.deliverAll (bs.map plannedCfg)).m.faults = s.m.faults := by
  induction bs generalizing s with
  | nil => exact ⟨rfl, rfl⟩
  | cons b bs ih =>
    have hfaults := State.deliver_cfg_faults h b
    obtain ⟨hfbs, hmarks⟩ := ih ((State.rxLost_congr hfaults (by simp)).trans h)
    exact ⟨hfbs.trans (State.deliver_cfg_fb h b), hmarks.trans hfaults⟩

/-- Configuration units leave the receiver known. -/
theorem State.deliverAll_cfg_known (bs : List Byte) : (s.deliverAll (bs.map plannedCfg)).rxLost = false := by
  obtain ⟨-, hfaults⟩ := State.deliverAll_cfg h bs
  exact (State.rxLost_congr hfaults (by rw [State.deliverAll_seq])).trans h

/-! ## The units of an INITIALIZE (R120) -/

variable {op : OpLatch} (hop : s.seq.op = some op) (hcode : op.code = 0) (hidx : s.seq.idx = 0)
include hop hcode hidx

/-- INIT_SEQ is not empty (R7), and its last unit is the one that completes it (R122). -/
theorem State.deliverAll_initSeq_cfg :
    (s.deliverAll (Config.initSeq.map plannedCfg)).rx.cfg = Config.cfgConfigured := by
  have hlength : Config.initSeq.length = Config.initLen := rfl
  rcases List.eq_nil_or_concat' Config.initSeq with hnil | ⟨bs, b, hbs⟩
  · have hge := initLen_ge
    rw [← hlength, hnil, List.length_nil] at hge
    omega
  · have hlast : completesInit (s.deliverAll (bs.map plannedCfg)) = true := by
      simp [completesInit, State.deliverAll_seq, hop, hcode, hidx, ← hlength, hbs]
    rw [hbs, List.map_append, State.deliverAll_append]
    exact State.deliver_cfg_last (State.deliverAll_cfg_known h bs) hlast b

/-- The cursor-set names (0, 0), whatever the configuration units made of the cursor (R120, R182). -/
theorem State.deliverAll_initialise (hbus : s.port.bus = none) :
    (s.deliverAll (Config.initSeq.map plannedCfg ++ cursorUnits 0 0)).rx =
        { page := 0, col := 0, fb := s.rx.fb, cfg := Config.cfgConfigured } ∧
      (s.deliverAll (Config.initSeq.map plannedCfg ++ cursorUnits 0 0)).m.faults = s.m.faults := by
  have hcfg := State.deliverAll_initSeq_cfg h hop hcode hidx
  obtain ⟨hfb, hfaults⟩ := State.deliverAll_cfg h Config.initSeq
  have hfree : (s.deliverAll (Config.initSeq.map plannedCfg)).port.bus = none := by
    rw [State.deliverAll_bus _ _ hbus, hbus]
  rw [State.deliverAll_append, State.deliverAll_cursor (State.deliverAll_cfg_known h _) hfree (by decide) (by decide)]
  exact ⟨by rw [← hfb, ← hcfg]; rfl, hfaults⟩

end Cfg

end Sys2Proof.Machine

namespace Sys2Proof.Statements

open Sys2Proof.Machine

/-- The records of a delivered cursor-set are the three command units as numbers (R94, R95, R131). -/
theorem cursorUnits_records (x y : Nat) :
    (cursorUnits x y).map (fun p => (⟨p.txn, 0⟩ : Record)) = cursorRecords x y := by
  rw [cursorUnits, pageByte_number, colLoByte_number, colHiByte_number]
  rfl

/-- The records of a delivered INITIALIZE (R120). -/
theorem initialise_records : (expand (latch 0 0 0 0 false [])).map (fun p => (⟨p.txn, 0⟩ : Record)) =
    Config.initSeq.map (fun b => commandRecord .initCfg b.toNat) ++ cursorRecords 0 0 := by
  have hrecord (b : Byte) : (⟨(plannedCfg b).txn, 0⟩ : Record) = commandRecord .initCfg b.toNat := by
    rw [commandRecord, BitVec.ofNat_toNat, BitVec.setWidth_eq]
    rfl
  rw [expand_initialise, List.map_append, cursorUnits_records, List.map_map]
  exact congrArg (· ++ cursorRecords 0 0) (List.map_congr_left fun b _ => hrecord b)

/-- What an INITIALIZE that is answered 0 throughout leaves, from any state whose receiver is known. -/
theorem initialise_completes {s : State} {rest : List Status} (hzeros : IdleWithZeros s (Config.initLen + 3) rest)
    (hknown : s.rxLost = false) :
    ∃ t, exec .initialise s = .next t ∧
      t.seq = { ended s.seq ⟨0, 0⟩ (Config.initLen + 3) with ready := true } ∧
      t.port = portAfter s.port rest ∧
      t.rx = { page := 0, col := 0, fb := s.rx.fb, cfg := Config.cfgConfigured } ∧
      t.m.faults = s.m.faults ∧
      t.m.hist = s.m.hist ++ Config.initSeq.map (fun b => commandRecord .initCfg b.toNat) ++ cursorRecords 0 0 := by
  obtain ⟨hidle, hanswers⟩ := hzeros
  have hlength : (expand (latch 0 0 0 0 false [])).length = Config.initLen + 3 := expansionLengths.2 .initialise _ rfl
  obtain ⟨-, hbus⟩ := State.idle_iff.1 hidle
  obtain ⟨hrx, hfaults⟩ :=
    State.deliverAll_initialise (s := s.accept (latch 0 0 0 0 false []) 0) hknown rfl rfl rfl hbus
  refine ⟨_, (exec_of_latchOf rfl s).trans (congrArg _ (State.perform_done hidle hlength hanswers)), ?_,
    State.done_port hidle _ _ rest, (State.done_rx ..).trans hrx, ?_, ?_⟩
  · rw [State.done_seq, hlength, decide_eq_true (by rfl), Bool.or_true]
    rfl
  · rw [State.done_m]
    exact hfaults
  · rw [State.done_m, State.deliverAll_hist, initialise_records, List.append_assoc]
    rfl

/-- Settles O17: without a mark the receiver is known (`initialise_completes`). -/
theorem initialiseMakesReady : Obligations.InitialiseMakesReady := by
  intro s rest hzeros hunmarked
  exact initialise_completes hzeros hunmarked.rxLost

/-- Settles O60: data units sent too early leave the receiver known as long as the block is not Ready (R183). -/
theorem initialiseAfterEarlyData : Obligations.InitialiseAfterEarlyData := by
  intro s rest hzeros hmarked hready
  have hknown : s.rxLost = false := by
    rw [State.rxLost_eq_false_iff, hmarked]
    exact ⟨rfl, rfl, fun _ => hready⟩
  obtain ⟨t, hexec, hseq, -, hrx, hfaults, -⟩ := initialise_completes hzeros hknown
  exact ⟨t, hexec, by rw [hseq], by rw [hseq]; rfl, by rw [hrx], by rw [hrx], hfaults⟩

/-- Settles O18: the second INITIALIZE meets the premises of O17 again, and what O17 says of the state afterwards
depends on the state before it only in what the first one kept. -/
theorem initialiseIsIdempotent : Obligations.InitialiseIsIdempotent := by
  intro s t u rest ⟨hidle, hanswers⟩ hunmarked hexec hexec'
  have hzeros : IdleWithZeros s (Config.initLen + 3) (List.replicate (Config.initLen + 3) 0 ++ rest) :=
    ⟨hidle, by rw [hanswers, Nat.two_mul, ← List.replicate_append_replicate, List.append_assoc]⟩
  obtain ⟨_, hfirst, hseq, hport, hrx, hfaults, hhist⟩ := initialiseMakesReady s _ hzeros hunmarked
  cases hexec.symm.trans hfirst
  have hzeros' : IdleWithZeros t (Config.initLen + 3) rest :=
    ⟨State.idle_iff.2 ⟨by rw [hseq]; rfl, by rw [hport]; rfl⟩, by rw [hport]; rfl⟩
  obtain ⟨_, hsecond, hseq', -, hrx', hfaults', hhist'⟩ :=
    initialiseMakesReady t rest hzeros' (hfaults.trans hunmarked)
  cases hexec'.symm.trans hsecond
  exact ⟨by rw [hseq', hseq]; rfl, by rw [hrx', hrx], hfaults', by rw [hrx'], by rw [hrx'], _,
    hhist.trans (List.append_assoc ..), hhist'.trans (List.append_assoc ..)⟩

/-! ## PROBE (R124) -/

/-- Settles O19: the one transaction of PROBE is its first, so a status 0 completes it and any other one is its failure;
either way the receiver has no unit to react to (R186). -/
theorem probeReturnsTheStatus : Obligations.ProbeReturnsTheStatus := by
  intro s st rest hidle hanswers
  refine (exec_of_latchOf rfl s).trans (congrArg _ ?_)
  by_cases hst : st = 0
  · subst hst
    rw [State.perform_done (n := 1) hidle rfl hanswers, if_pos rfl, if_pos rfl]
    rfl
  · rw [State.perform_fail (n := 0) (p := ⟨.probe, false⟩) rfl hidle hst hanswers, if_neg hst, if_neg hst]
    rfl

end Sys2Proof.Statements
end

section
/-! PROOF. The marks of a cursor-set (R131, R132) and of the operations made of cursor-sets and data units:
CursorOutOfRange is added exactly when one of the positions is out of range, and on a ready display no other mark is.
With it: SET_CURSOR, DRAW_TEXT and DRAW_BITMAP with operands out of range (R132, R154, R168). -/

namespace Sys2Proof.Machine

/-! ## The mark of a range check -/

/-- The marks with CursorOutOfRange added where a check finds a position out of range (R132). -/
def Marks.checkRange (f : Marks) (out : Bool) : Marks := { f with cursorOutOfRange := f.cursorOutOfRange || out }

@[simp] theorem Marks.checkRange_false (f : Marks) : f.checkRange false = f := by simp [Marks.checkRange]

@[simp] theorem Marks.checkRange_checkRange (f : Marks) (a b : Bool) :
    (f.checkRange a).checkRange b = f.checkRange (a || b) := by
  simp [Marks.checkRange, Bool.or_assoc]

theorem Marks.checkRange_true (f : Marks) : f.checkRange true = f.addCursorOutOfRange := by
  simp [Marks.checkRange, Marks.addCursorOutOfRange]

/-- The sender's check: a planned unit is marked when it is presented (R130, R165). -/
theorem State.present_checkRange (s : State) (p : Planned) :
    (s.present p).m.faults = s.m.faults.checkRange p.outOfRange := by
  rw [State.present_faults]
  cases p.outOfRange
  · exact (Marks.checkRange_false _).symm
  · exact (Marks.checkRange_true _).symm

/-- The range of a position as R132 gives it. -/
theorem cursorOut_eq (x y : Nat) : cursorOut x y = decide (128 ≤ x ∨ 8 ≤ y) := (Bool.decide_or _ _).symm

/-- Some cell is out of range exactly when the last one, four cells on in both directions, is (R168). -/
theorem any_cell_out (x y : Byte) :
    ((List.finRange 5).any fun row => (List.finRange 5).any fun col => cursorOut (cellX x col) (cellY y row)) =
      decide (95 < x.toNat ∨ 3 < y.toNat) := by
  rw [Bool.eq_iff_iff, decide_eq_true_iff]
  simp only [List.any_eq_true, List.mem_finRange, true_and, cursorOut_eq, decide_eq_true_iff, cellX, cellY]
  constructor
  · rintro ⟨row, col, hout⟩
    omega
  · intro hout
    refine ⟨4, 4, ?_⟩
    change 128 ≤ x.toNat + 8 * 4 ∨ 8 ≤ y.toNat + 4
    omega

/-! ## The three cursor commands at the receiver (R176 to R178) -/

theorem receive_pageByte (y : Nat) (s : State) :
    receive .cursor Config.ctrlCmd (pageByte y) s = rxPageSel (BitVec.ofNat 3 y) s := by
  rw [receive, decodeUnit_page]

theorem receive_colLoByte (x : Nat) (s : State) :
    receive .cursor Config.ctrlCmd (colLoByte x) s = rxColLo (BitVec.ofNat 4 x) s := by
  rw [receive, decodeUnit_colLo]

theorem receive_colHiByte (x : Nat) (s : State) :
    receive .cursor Config.ctrlCmd (colHiByte x) s = rxColHi (BitVec.ofNat 4 (x / 16)) s := by
  rw [receive, decodeUnit_colHi]

theorem rxPageSel_faults (p : BitVec 3) (s : State) : (rxPageSel p s).m.faults = s.m.faults :=
  State.reacting_faults rfl

theorem rxColLo_faults (n : BitVec 4) (s : State) : (rxColLo n s).m.faults = s.m.faults := State.reacting_faults rfl

/-- COL_HI checks the range too, for a nibble that names no column (R178). -/
theorem rxColHi_faults (n : BitVec 4) (s : State) :
    (rxColHi n s).m.faults = s.m.faults.checkRange (decide (7 < n.toNat)) := by
  unfold rxColHi
  split
  · next h =>
    rw [decide_eq_false (Nat.not_lt.2 h), Marks.checkRange_false]
    exact State.reacting_faults rfl
  · next h =>
    have hreact : (s.reacting State.freeColumn).m.faults = s.m.faults := State.reacting_faults rfl
    rw [decide_eq_true (Nat.not_le.1 h), Marks.checkRange_true, State.setFaults_faults, hreact]

/-- A delivered command is checked by the sender, then by the receiver. -/
theorem State.deliver_command_faults {b : Byte} {mark : Bool}
    (hrule : ∀ s : State, (receive .cursor Config.ctrlCmd b s).m.faults = s.m.faults.checkRange mark)
    (s : State) (out : Bool) :
    (s.deliver ⟨.command b .cursor, out⟩).m.faults = s.m.faults.checkRange (out || mark) := by
  rw [State.deliver, State.countUnit_m, Txn.command, State.settle_ofUnit, hrule, State.record_faults]
  change (s.present _).m.faults.checkRange mark = _
  rw [State.present_checkRange, Marks.checkRange_checkRange]

/-! ## The marks of a list of units -/

/-- Delivered to a display whose `ready` is `r`, these units add CursorOutOfRange exactly if `out`, and no other mark. -/
def MarksRange (r : Bool) (l : List Planned) (out : Bool) : Prop :=
  ∀ s : State, s.seq.ready = r → (s.deliverAll l).m.faults = s.m.faults.checkRange out

namespace MarksRange

variable {r : Bool}

theorem nil : MarksRange r [] false := fun s _ => (Marks.checkRange_false s.m.faults).symm

theorem append {k l : List Planned} {a b : Bool} (hk : MarksRange r k a) (hl : MarksRange r l b) :
    MarksRange r (k ++ l) (a || b) := by
  intro s hready
  have hready' : (s.deliverAll k).seq.ready = r := by rw [State.deliverAll_seq, hready]
  rw [State.deliverAll_append, hl _ hready', hk s hready, Marks.checkRange_checkRange]

theorem flatMap {α : Type} {f : α → List Planned} {out : α → Bool} (h : ∀ a, MarksRange r (f a) (out a))
    (as : List α) : MarksRange r (as.flatMap f) (as.any out) := by
  induction as with
  | nil => exact nil
  | cons a as ih => exact (h a).append ih

/-- A cursor-set is marked by the sender's check alone: a nibble that COL_HI marks comes from a column out of range, which
is marked already (R131, R132, R178). -/
theorem cursorUnits (x y : Nat) : MarksRange r (cursorUnits x y) (cursorOut x y) := by
  intro s _
  have hpage := State.deliver_command_faults (b := pageByte y) (mark := false) fun s => by
    rw [receive_pageByte, rxPageSel_faults, Marks.checkRange_false]
  have hlow := State.deliver_command_faults (b := colLoByte x) (mark := false) fun s => by
    rw [receive_colLoByte, rxColLo_faults, Marks.checkRange_false]
  have hhigh := State.deliver_command_faults (b := colHiByte x) fun s => by
    rw [receive_colHiByte, rxColHi_faults]
  have hnibble : 7 < (BitVec.ofNat 4 (x / 16)).toNat → 128 ≤ x := by
    rw [BitVec.toNat_ofNat]
    omega
  have hmarked : (cursorOut x y || decide (7 < (BitVec.ofNat 4 (x / 16)).toNat)) = cursorOut x y := by
    rw [Bool.or_eq_left_iff_imp, decide_eq_true_iff, cursorOut_eq, decide_eq_true_iff]
    exact fun h => .inl (hnibble h)
  rw [Machine.cursorUnits, State.deliverAll_cons', State.deliverAll_cons', State.deliverAll_cons', State.deliverAll_nil,
    hhigh, hlow, hpage]
  simp only [Marks.checkRange_checkRange, Bool.or_false, Bool.false_or, hmarked]

/-- Data units on a ready display add no mark, also where they run past the last position (R179 to R181). -/
theorem data (ds : List Byte) : MarksRange true (ds.map plannedData) false := by
  induction ds with
  | nil => exact nil
  | cons d ds ih =>
    intro s hready
    have hfirst : (s.deliver (plannedData d)).m.faults = s.m.faults :=
      rxDataWr_faults_ready (s := ({ s with port := { s.port with bus := none } } : State).record (.data d) 0) hready d
    rw [List.map_cons, State.deliverAll_cons', ih _ (by simpa using hready), hfirst]

theorem append_data {k : List Planned} {a : Bool} (hk : MarksRange true k a) (ds : List Byte) :
    MarksRange true (k ++ ds.map plannedData) a := by
  simpa only [Bool.or_false] using hk.append (data ds)

/-- A DRAW_TEXT is marked for its cursor alone (R132, R154). -/
theorem text (x y : Byte) (inv : Bool) (text : List Byte) :
    MarksRange true (expand (latch 6 x y 0 inv text)) (cursorOut x.toNat y.toNat) := by
  have hunits := (cursorUnits x.toNat y.toNat).append_data ((drawable text).flatMap (glyphBytes · inv))
  rwa [List.map_flatMap] at hunits

theorem cellUnits (x y : Byte) (col row : Fin 5) :
    MarksRange true (cellUnits x y col row) (cursorOut (cellX x col) (cellY y row)) := by
  have hunits := (cursorUnits (cellX x col) (cellY y row)).append_data ((List.finRange 8).map (Config.qr col row))
  rwa [List.map_map] at hunits

/-- The cells of a DRAW_BITMAP are marked one by one (R165, R168). -/
theorem bitmapUnits (x y : Byte) : MarksRange true (bitmapUnits x y) (decide (95 < x.toNat ∨ 3 < y.toNat)) := by
  rw [← any_cell_out x y]
  exact flatMap (fun row => flatMap (fun col => cellUnits x y col row) _) _

end MarksRange

/-! ## The units of SET_CURSOR, DRAW_BITMAP and DRAW_TEXT -/

theorem expand_setCursor (x y : Byte) : expand (latch 2 x y 0 false []) = cursorUnits x.toNat y.toNat := rfl

theorem expand_bitmap (x y : Byte) : expand (latch 7 x y 0 false []) = bitmapUnits x y := rfl

/-- All characters are drawn exactly when all are supported (R153). -/
theorem drawable_eq_self_iff {text : List Byte} : drawable text = text ↔ text.all supported = true := by
  rw [drawable, List.takeWhile_eq_self_iff, List.all_eq_true]

end Sys2Proof.Machine

namespace Sys2Proof.Statements

open Sys2Proof.Machine

/-- The whole next state of an operation other than INITIALIZE whose transport answers 0 throughout (R114, R200): the
receiver and the bookkeeping are those after its units. -/
theorem exec_done {i : Instr} {op : OpLatch} {s : State} {n : Nat} {rest : List Status} (hlatch : latchOf i = some op)
    (hcode : op.code ≠ 0) (hlength : (expand op).length = n) (hzeros : IdleWithZeros s n rest) :
    exec i s = .next
      { seq := ended s.seq (resultOf op) n
        rx := ((s.accept op 0).deliverAll (expand op)).rx
        port := portAfter s.port rest
        m := ((s.accept op 0).deliverAll (expand op)).m } := by
  obtain ⟨hidle, hanswers⟩ := hzeros
  have hseq := State.done_seq s op (expand op) rest
  rw [decide_eq_false hcode, Bool.or_false, hlength] at hseq
  have hport := State.done_port hidle op (expand op) rest
  have hrx := State.done_rx s op (expand op) rest
  have hm := State.done_m s op (expand op) rest
  rw [exec_of_latchOf hlatch, State.perform_done hidle hlength hanswers]
  exact congrArg _ (by rw [← hrx, ← hm, portAfter, ← hport, ended, ← hseq])

/-- The records of the glyphs of a text: seven data units each (R151, R153). -/
theorem glyphUnits_records (text : List Byte) (inv : Bool) :
    (text.flatMap (glyphUnits · inv)).map (fun p => (⟨p.txn, 0⟩ : Record)) =
      (text.flatMap (glyphBytes · inv)).map dataRecord := by
  rw [List.map_flatMap, List.map_flatMap]
  simp only [glyphUnits, List.map_map]
  rfl

/-- The characters that the statements call drawn. -/
theorem drawable_eq_takeWhile (text : List Byte) :
    drawable text = text.takeWhile fun c => 32 ≤ c.toNat && c.toNat ≤ 122 := rfl

/-- Settles O20: the closed form of the run, with the cursor-set of an in-range position (R131). -/
theorem setCursorMovesTheCursor : Obligations.SetCursorMovesTheCursor := by
  intro s x y rest hzeros hunmarked hx hy
  obtain ⟨-, hbus⟩ := State.idle_iff.1 hzeros.1
  rw [exec_done (i := .setCursor x y) rfl (by decide : (2 : BitVec 3) ≠ 0) rfl hzeros, expand_setCursor,
    State.deliverAll_cursor (s := s.accept _ 0) hunmarked.rxLost hbus hx hy, cursorUnits_records]
  rfl

/-- Settles O21: the three units are those of `cursor(x, y)` in every state, and the mark is the sender's check. -/
theorem setCursorDoesNotCheckTheRange : Obligations.SetCursorDoesNotCheckTheRange := by
  intro s x y rest hzeros
  refine ⟨_, exec_done (i := .setCursor x y) rfl (by decide : (2 : BitVec 3) ≠ 0) rfl hzeros, rfl, rfl, ?_, ?_⟩
  · rw [State.deliverAll_hist, expand_setCursor, cursorUnits_records]
    rfl
  · rw [← cursorOut_eq]
    exact MarksRange.cursorUnits x.toNat y.toNat (s.accept _ 0) rfl

/-- Settles O22: the mark is there when the first unit is presented, and no run takes a mark back (`OnlyAdds`). -/
theorem outOfRangeMarkComesFirst : Obligations.OutOfRangeMarkComesFirst := by
  intro s t x y hidle hout hexec
  cases hexec
  rw [State.perform_idle hidle, (Between.accept hidle (latch 2 x y 0 false []) 0).advance_cons]
  refine (OnlyAdds.engineClosed.runOn _ _).faults.1 ?_
  have hmark : cursorOut x.toNat y.toNat = true := by rw [cursorOut_eq, decide_eq_true hout]
  rw [State.present_checkRange]
  exact (congrArg (_ || ·) hmark).trans (Bool.or_true _)

/-- Settles O58: the records of the cursor-set and of the glyphs, whatever the operands are; the glyphs add no mark. -/
theorem drawTextDoesNotCheckTheRange : Obligations.DrawTextDoesNotCheckTheRange := by
  intro s text x y inv rest drawn bytes hzeros hready
  have hdrawn : drawable text = drawn := drawable_eq_takeWhile text
  have hlength : (expand (latch 6 x y 0 inv text)).length = 3 + 7 * drawn.length :=
    expansionLengths.2 (.drawText text x y inv) _ rfl
  have hresult : resultOf (latch 6 x y 0 inv text) = if drawn = text then ⟨0, 0⟩ else ⟨2, 0⟩ := by
    rw [resultOf_text rfl, ← hdrawn]
    exact if_congr drawable_eq_self_iff.symm rfl rfl
  refine ⟨_, exec_done (i := .drawText text x y inv) rfl (by decide : (6 : BitVec 3) ≠ 0) hlength hzeros, ?_, rfl,
    ?_, ?_⟩
  · rw [hresult]
  · rw [State.deliverAll_hist, expand_text, List.map_append, cursorUnits_records, glyphUnits_records, hdrawn,
      ← List.append_assoc]
    rfl
  · rw [← cursorOut_eq]
    exact MarksRange.text x y inv text (s.accept _ 0) hready

/-- Settles O34: the marks of the 25 cells together (`MarksRange.bitmapUnits`). -/
theorem drawBitmapMarksOutOfRangeCells : Obligations.DrawBitmapMarksOutOfRangeCells := by
  intro s x y rest hzeros hready
  refine ⟨_, exec_done (i := .drawBitmap x y) rfl (by decide : (7 : BitVec 3) ≠ 0) (bitmapUnits_length x y) hzeros,
    ?_⟩
  -- Reads the field off the next state first: the unifier would run the 275 units instead.
  dsimp only
  rw [expand_bitmap]
  exact MarksRange.bitmapUnits x y (s.accept _ 0) hready

end Sys2Proof.Statements
end

section
/-! PROOF. A fill of a ready, unmarked display (R140 to R143): it stores its byte from the cursor to the last position,
and the units that are left over store the same byte wherever they land. -/

namespace Sys2Proof.Machine

/-- Enough data units of one byte to reach the last position from linear position `L` cover all of `L` to 1023 (R142):
the first `1024 - L` go there one behind another, and no later one puts another byte there. -/
theorem State.deliverAll_fill_covers {s : State} {b : Byte} {L n : Nat} (hready : s.seq.ready = true)
    (hknown : s.rxLost = false) (hcursor : s.CursorAt L) (hn : 1024 ≤ L + n) {a : Nat} (hLa : L ≤ a) (ha : a < 1024) :
    (s.deliverAll (List.replicate n (plannedData b))).rx.fb.read a = some b := by
  have hsplit : List.replicate n (plannedData b) =
      (List.replicate (1024 - L) b).map plannedData ++ List.replicate (n - (1024 - L)) (plannedData b) := by
    rw [List.map_replicate, List.replicate_append_replicate, Nat.add_sub_cancel' (by omega)]
  have hlength : L + (List.replicate (1024 - L) b).length = 1024 := by
    rw [List.length_replicate]
    omega
  obtain ⟨hfaults, -, hstored, -⟩ := State.deliverAll_data hready hknown hcursor hlength.le
  have hready' : (s.deliverAll ((List.replicate (1024 - L) b).map plannedData)).seq.ready = true := by
    rw [State.deliverAll_seq, hready]
  have hknown' := (State.rxLost_congr hfaults (hready'.trans hready.symm)).trans hknown
  obtain ⟨-, -, hkept⟩ := State.deliverAll_fill (n - (1024 - L)) hready' hknown'
  rw [hsplit, State.deliverAll_append]
  refine hkept a ?_
  rw [hstored, hlength, if_pos ⟨hLa, ha⟩, List.getElem?_replicate_of_lt (by omega)]

end Sys2Proof.Machine

namespace Sys2Proof.Statements

open Sys2Proof.Machine

/-- CLEAR_ALL and FILL_ALL are the fills with 0x00 and with 0xFF (R140, R141). -/
theorem latchOf_isFill {i : Instr} {b : Byte}
    (hmem : (i, b) ∈ [(Instr.clearAll, (0x00 : Byte)), (Instr.fillAll, (0xFF : Byte))]) :
    ∃ op, latchOf i = some op ∧ IsFill op b := by
  simp only [List.mem_cons, List.not_mem_nil, or_false, Prod.mk.injEq] at hmem
  rcases hmem with ⟨rfl, rfl⟩ | ⟨rfl, rfl⟩
  · exact ⟨_, rfl, isFill_clearAll⟩
  · exact ⟨_, rfl, isFill_fillAll⟩

/-- A fill of a ready, unmarked display from linear position `L`, its transport answering 0 throughout (R142, R143). -/
theorem fill_ready {i : Instr} {op : OpLatch} {s : State} {b : Byte} {L : Nat} {rest : List Status}
    (hlatch : latchOf i = some op) (hfill : IsFill op b) (hzeros : IdleWithZeros s Config.fillCount rest)
    (hready : s.seq.ready = true) (hunmarked : s.Unmarked) (hcursor : s.CursorAt L) :
    ∃ t, exec i s = .next t ∧ t.seq = ended s.seq ⟨0, 0⟩ Config.fillCount ∧ t.port = portAfter s.port rest ∧
      t.m.faults = s.m.faults ∧ t.rx.cfg = s.rx.cfg ∧
      t.m.hist = s.m.hist ++ List.replicate Config.fillCount (dataRecord b) ∧
      ∀ a, L ≤ a → a < 1024 → t.rx.fb.read a = some b := by
  obtain ⟨hcode, hres, hexpand⟩ := hfill
  have hlength : (expand op).length = Config.fillCount := by rw [hexpand, List.length_replicate]
  obtain ⟨hfaults, hcfg, -⟩ :=
    State.deliverAll_fill (s := s.accept op 0) (b := b) Config.fillCount hready hunmarked.rxLost
  have hreach : 1024 ≤ L + Config.fillCount := Nat.le_add_left Config.fillCount L
  refine ⟨_, exec_done hlatch hcode hlength hzeros, ?_, rfl, ?_⟩
  · rw [hres]
    rfl
  -- Reads the fields off the next state first: the unifier would run the 1024 units instead.
  dsimp only
  rw [State.deliverAll_hist, hexpand, List.map_replicate]
  exact ⟨hfaults, hcfg, rfl, fun a hLa ha =>
    State.deliverAll_fill_covers (s := s.accept op 0) hready hunmarked.rxLost hcursor hreach hLa ha⟩

/-- Settles O23: from linear position 0 a fill covers every position there is (`lin_lt`). -/
theorem fillCoversTheSurface : Obligations.FillCoversTheSurface := by
  intro i b hmem s rest hzeros hready hunmarked hcursor
  obtain ⟨op, hlatch, hfill⟩ := latchOf_isFill hmem
  obtain ⟨t, hexec, hseq, hport, hfaults, hcfg, hhist, hcovered⟩ :=
    fill_ready hlatch hfill hzeros hready hunmarked hcursor
  exact ⟨t, hexec, hseq, hport, hfaults.trans hunmarked, hcfg, hhist,
    fun p c => hcovered (lin p c) (Nat.zero_le _) (lin_lt p c)⟩

/-- Settles O24: the coverage from the cursor on (`fill_ready`). -/
theorem fillStartsAtTheCursor : Obligations.FillStartsAtTheCursor := by
  intro i b hmem s L rest hzeros hready hunmarked hcursor
  obtain ⟨op, hlatch, hfill⟩ := latchOf_isFill hmem
  obtain ⟨t, hexec, hseq, -, hfaults, -, hhist, hcovered⟩ :=
    fill_ready hlatch hfill hzeros hready hunmarked hcursor
  exact ⟨t, hexec, hseq, hfaults, hhist, hcovered⟩

end Sys2Proof.Statements
end

section
/-! PROOF. DRAW_GLYPH and DRAW_TEXT on a ready, unmarked display (R150 to R154): the seven bytes of a glyph, and where
the data units of a glyph and of a text behind its cursor-set are stored. -/

namespace Sys2Proof.Machine

/-! ## The bytes of a glyph (R151) -/

/-- The index of a supported character needs no reduction (R96). -/
theorem glyphIndex_eq {ch : Byte} (h : ch.toNat - 32 < 91) : glyphIndex ch = ⟨ch.toNat - 32, h⟩ :=
  Fin.ext (Nat.mod_eq_of_lt h)

/-- The columns of a glyph as they are, or complemented. -/
theorem column_xor_invertMask (c : Byte) (inv : Bool) : c ^^^ invertMask inv = if inv then ~~~c else c := by
  cases inv
  · exact BitVec.xor_zero
  · exact BitVec.xor_allOnes

/-- Margin, five columns, margin. -/
theorem glyphBytes_columns (ch : Byte) (inv : Bool) :
    glyphBytes ch inv = [invertMask inv] ++
      [0, 1, 2, 3, 4].map (fun k => if inv then ~~~Config.font (glyphIndex ch) k else Config.font (glyphIndex ch) k) ++
      [invertMask inv] := by
  simp only [glyphBytes, column_xor_invertMask]
  rfl

@[simp] theorem glyphBytes_length (ch : Byte) (inv : Bool) : (glyphBytes ch inv).length = 7 := by
  rw [glyphBytes_columns]
  rfl

theorem flatMap_glyphBytes_length (text : List Byte) (inv : Bool) :
    (text.flatMap (glyphBytes · inv)).length = 7 * text.length := by
  simp [List.length_flatMap, Nat.mul_comm]

/-! ## The units of DRAW_GLYPH and DRAW_TEXT as data units -/

theorem expand_glyph_supported {ch : Byte} (h : 32 ≤ ch.toNat ∧ ch.toNat ≤ 122) (inv : Bool) :
    expand (latch 5 0 0 ch inv []) = (glyphBytes ch inv).map plannedData := by
  rw [expand_glyph, if_pos ((supported_iff ch).2 h), glyphUnits]

theorem supported_eq_false {ch : Byte} (h : ch.toNat < 32 ∨ 122 < ch.toNat) : supported ch = false := by
  rw [Bool.eq_false_iff, ne_eq, supported_iff]
  omega

theorem expand_text_data (x y : Byte) (inv : Bool) (text : List Byte) :
    expand (latch 6 x y 0 inv text) =
      cursorUnits x.toNat y.toNat ++ ((drawable text).flatMap (glyphBytes · inv)).map plannedData := by
  rw [expand_text, List.map_flatMap]
  rfl

/-- The result of DRAW_GLYPH (R150, R152). -/
theorem resultOf_glyph (ch : Byte) (inv : Bool) :
    resultOf (latch 5 0 0 ch inv []) = if supported ch then ⟨0, 0⟩ else ⟨2, 0⟩ := by
  cases hch : supported ch <;> simp [resultOf, meetsUnsupported, latch, hch] <;> rfl

/-! ## Data units behind a cursor-set -/

/-- The position that the registers name after the cursor-set of an in-range position (R73, R131). -/
theorem lin_ofNat {x y : Nat} (hx : x < 128) (hy : y < 8) :
    lin (BitVec.ofNat 3 y) (BitVec.ofNat 7 x) = 128 * y + x := by
  rw [lin, BitVec.toNat_ofNat, BitVec.toNat_ofNat, Nat.mod_eq_of_lt hx, Nat.mod_eq_of_lt hy]

/-- Data units behind the cursor-set of an in-range position are stored from that position on (R131, R187). -/
theorem State.deliverAll_cursor_data {s : State} {x y : Nat} {ds : List Byte} (hready : s.seq.ready = true)
    (hknown : s.rxLost = false) (hbus : s.port.bus = none) (hx : x < 128) (hy : y < 8)
    (hfits : 128 * y + x + ds.length ≤ 1024) :
    let t := s.deliverAll (cursorUnits x y ++ ds.map plannedData)
    t.rx.cfg = s.rx.cfg ∧ Statements.Stored s.rx.fb t.rx.fb (128 * y + x) ds ∧
      (128 * y + x + ds.length < 1024 → t.CursorAt (128 * y + x + ds.length)) := by
  rw [State.deliverAll_append, State.deliverAll_cursor hknown hbus hx hy]
  -- `by exact`: the goal names the state, so the hypotheses about it are read after it is known.
  exact And.right (State.deliverAll_data (by exact hready) (by exact hknown) (lin_ofNat hx hy) hfits)

end Sys2Proof.Machine

namespace Sys2Proof.Statements

open Sys2Proof.Machine

/-- Settles O7: the columns of `glyphBytes_columns` without and with the complement. -/
theorem glyphIsSevenBytes : Obligations.GlyphIsSevenBytes := by
  refine ⟨fun ch h => ?_, by decide, by decide⟩
  have hindex : glyphIndex ch = ⟨ch.toNat - 32, by omega⟩ := glyphIndex_eq (by omega)
  rw [← hindex]
  refine ⟨glyphBytes_columns ch false, glyphBytes_columns ch true, fun inv => ?_⟩
  rw [expand_glyph_supported h, List.map_map]
  rfl

/-- Settles O27: the expansion is empty, and the result is that of an unsupported character. -/
theorem unsupportedGlyphIssuesNothing : Obligations.UnsupportedGlyphIssuesNothing := by
  intro s ch inv hidle hch
  have hexpand : expand (latch 5 0 0 ch inv []) = [] := by
    rw [expand_glyph, supported_eq_false hch]
    rfl
  have hresult : resultOf (latch 5 0 0 ch inv []) = ⟨2, 0⟩ := by
    rw [resultOf_glyph, supported_eq_false hch]
    rfl
  rw [exec_done (i := .drawGlyph ch inv) rfl (by decide : (5 : BitVec 3) ≠ 0) (congrArg List.length hexpand)
    ⟨hidle, rfl⟩, hexpand, hresult]
  rfl

/-- Settles O26: the seven data units of the glyph, stored one behind another (`State.deliverAll_data`). -/
theorem drawGlyphStoresSevenBytes : Obligations.DrawGlyphStoresSevenBytes := by
  intro s ch inv L rest hzeros hready hunmarked hlow hhigh hcursor hfits
  have hexpand := expand_glyph_supported ⟨hlow, hhigh⟩ inv
  have hresult : resultOf (latch 5 0 0 ch inv []) = ⟨0, 0⟩ := by
    rw [resultOf_glyph, if_pos ((supported_iff ch).2 ⟨hlow, hhigh⟩)]
  have hlength : (expand (latch 5 0 0 ch inv [])).length = 7 := by
    rw [hexpand, List.length_map, glyphBytes_length]
  obtain ⟨hfaults, hcfg, hstored, hbehind⟩ := State.deliverAll_data (s := s.accept (latch 5 0 0 ch inv []) 0)
    (ds := glyphBytes ch inv) hready hunmarked.rxLost hcursor (by rwa [glyphBytes_length])
  rw [glyphBytes_length] at hbehind
  refine ⟨_, exec_done (i := .drawGlyph ch inv) rfl (by decide : (5 : BitVec 3) ≠ 0) hlength hzeros, ?_⟩
  dsimp only
  rw [State.deliverAll_hist, hexpand, hresult, List.map_map]
  exact ⟨rfl, rfl, hfaults, rfl, hstored, hcfg, hbehind⟩

/-- Settles O28: what holds for all operands (`drawTextDoesNotCheckTheRange`), and where the units behind the cursor-set
are stored. -/
theorem drawTextStoresItsGlyphs : Obligations.DrawTextStoresItsGlyphs := by
  intro s text x y inv rest drawn bytes L hzeros hready hunmarked hx hy hfits
  obtain ⟨-, hbus⟩ := State.idle_iff.1 hzeros.1
  obtain ⟨t, hexec, hseq, hport, hhist, hfaults⟩ := drawTextDoesNotCheckTheRange s text x y inv rest hzeros hready
  have hlength : bytes.length = 7 * drawn.length := flatMap_glyphBytes_length drawn inv
  have hrx : t.rx = ((s.accept (latch 6 x y 0 inv text) 0).deliverAll
      (cursorUnits x.toNat y.toNat ++ bytes.map plannedData)).rx := by
    have hdone := exec_done (i := .drawText text x y inv) rfl (by decide : (6 : BitVec 3) ≠ 0)
      (expansionLengths.2 (.drawText text x y inv) _ rfl) hzeros
    rw [hexec, expand_text_data] at hdone
    cases hdone
    rfl
  have hunchecked : decide (128 ≤ x.toNat ∨ 8 ≤ y.toNat) = false := decide_eq_false (by omega)
  obtain ⟨hcfg, hstored, hbehind⟩ := State.deliverAll_cursor_data (s := s.accept (latch 6 x y 0 inv text) 0)
    (ds := bytes) hready hunmarked.rxLost hbus hx hy (by rwa [hlength])
  rw [hlength] at hbehind
  refine ⟨t, hexec, hseq, hport, ?_, hhist, ?_⟩
  · rw [hfaults, hunchecked, Bool.or_false]
  · rw [State.CursorAt, hrx]
    exact ⟨hstored, hcfg, hbehind⟩

end Sys2Proof.Statements
end

section
/-! PROOF. DRAW_BITMAP (R165 to R168): its 25 cells in raster order, the records of a delivered one, and where the bytes
of an in-range one are stored. -/

namespace Sys2Proof.Machine

/-! ## Raster order (R167) -/

/-- The cells `(col, row)` in the order they are sent: the n-th has column `n % 5` and row `n / 5`. -/
def rasterCells : List (Fin 5 × Fin 5) :=
  (List.finRange 25).map fun n => (Fin.modNat (m := 5) n, Fin.divNat (n := 5) n)

theorem mem_rasterCells : ∀ c, c ∈ rasterCells := by decide

/-- The last cell is the one at the lower right. -/
theorem exists_rasterCells_eq_append : ∃ front, rasterCells = front ++ [(4, 4)] := ⟨rasterCells.dropLast, by decide⟩

/-- The units of a list of cells, one cell behind another. -/
def cellsUnits (x y : Byte) (cs : List (Fin 5 × Fin 5)) : List Planned := cs.flatMap fun c => cellUnits x y c.1 c.2

/-- The two loops of the definition run through the cells in raster order. -/
theorem bitmapUnits_eq (x y : Byte) : bitmapUnits x y = cellsUnits x y rasterCells := by
  have hloops : ((List.finRange 5).flatMap fun row => (List.finRange 5).map fun col => (col, row)) = rasterCells := by
    decide
  rw [← hloops, cellsUnits, List.flatMap_assoc]
  simp only [List.flatMap_map]
  rfl

/-! ## Where the bytes of a cell stand (R73, R165) -/

/-- The linear position of the first byte of a cell. -/
def cellStart (x y : Byte) (c : Fin 5 × Fin 5) : Nat := 128 * cellY y c.2 + cellX x c.1

theorem cellStart_eq (x y : Byte) (c : Fin 5 × Fin 5) :
    cellStart x y c = 128 * (y.toNat + c.2.val) + (x.toNat + 8 * c.1.val) := rfl

/-- The linear position `a` is that of a byte of a cell among `cs`. -/
def InCells (x y : Byte) (cs : List (Fin 5 × Fin 5)) (a : Nat) : Prop :=
  ∃ c ∈ cs, ∃ k : Fin 8, a = cellStart x y c + k.val

theorem inCells_append {x y : Byte} {cs ds : List (Fin 5 × Fin 5)} {a : Nat} :
    InCells x y (cs ++ ds) a ↔ InCells x y cs a ∨ InCells x y ds a := by
  simp only [InCells, List.mem_append, or_and_right, exists_or]

theorem inCells_singleton {x y : Byte} {c : Fin 5 × Fin 5} {a : Nat} :
    InCells x y [c] a ↔ cellStart x y c ≤ a ∧ a < cellStart x y c + 8 := by
  simp only [InCells, List.mem_singleton, exists_eq_left]
  constructor
  · rintro ⟨k, rfl⟩
    omega
  · intro h
    exact ⟨⟨a - cellStart x y c, by omega⟩, (Nat.add_sub_cancel' h.1).symm⟩

/-- The byte of the bitmap that belongs at linear position `a`: the distance from the first byte of the bitmap gives row,
column and byte, since a row of cells is 40 bytes wide and the next one begins 128 positions on. -/
def bitmapByte (x y : Byte) (a : Nat) : Byte :=
  let d := a - (128 * y.toNat + x.toNat)
  Config.qr (Fin.ofNat 5 (d % 128 / 8)) (Fin.ofNat 5 (d / 128)) (Fin.ofNat 8 d)

/-- No two cells share a position: each position of a cell belongs to that cell's byte. -/
theorem bitmapByte_cell (x y : Byte) (c : Fin 5 × Fin 5) (k : Fin 8) :
    bitmapByte x y (cellStart x y c + k.val) = Config.qr c.1 c.2 k := by
  have hcol := c.1.isLt
  have hrow := c.2.isLt
  have hk := k.isLt
  have hdist : cellStart x y c + k.val - (128 * y.toNat + x.toNat) = 128 * c.2.val + 8 * c.1.val + k.val := by
    rw [cellStart_eq]
    omega
  have hcolumn : Fin.ofNat 5 ((128 * c.2.val + 8 * c.1.val + k.val) % 128 / 8) = c.1 := by
    ext
    rw [Fin.val_ofNat]
    omega
  have hpage : Fin.ofNat 5 ((128 * c.2.val + 8 * c.1.val + k.val) / 128) = c.2 := by
    ext
    rw [Fin.val_ofNat]
    omega
  have hbyte : Fin.ofNat 8 (128 * c.2.val + 8 * c.1.val + k.val) = k := by
    ext
    rw [Fin.val_ofNat]
    omega
  rw [bitmapByte, hdist, hcolumn, hpage, hbyte]

/-- Every byte of the bitmap has a place on the surface: the cells are in range (R168), and the last row does not run past
the last position (R181). -/
structure BitmapFits (x y : Byte) : Prop where
  x_le : x.toNat ≤ 95
  y_le : y.toNat ≤ 3
  lastRow : x.toNat ≤ 88 ∨ y.toNat ≤ 2

theorem BitmapFits.cell {x y : Byte} (h : BitmapFits x y) (c : Fin 5 × Fin 5) :
    cellX x c.1 < 128 ∧ cellY y c.2 < 8 ∧ cellStart x y c + 8 ≤ 1024 := by
  obtain ⟨hx, hy, hlast⟩ := h
  have hcol := c.1.isLt
  have hrow := c.2.isLt
  rw [cellStart_eq, cellX, cellY]
  omega

/-! ## Cells at the receiver -/

/-- A ready display whose state is known, with no transaction outstanding. -/
structure State.Drawable (s : State) : Prop where
  ready : s.seq.ready = true
  known : s.rxLost = false
  bus : s.port.bus = none

/-- Delivered units keep a display drawable if they add no mark. -/
theorem State.Drawable.deliverAll {s : State} (h : s.Drawable) {l : List Planned}
    (hfaults : (s.deliverAll l).m.faults = s.m.faults) : (s.deliverAll l).Drawable where
  ready := by rw [State.deliverAll_seq, h.ready]
  known := (State.rxLost_congr hfaults (by rw [State.deliverAll_seq])).trans h.known
  bus := by rw [State.deliverAll_bus s l h.bus, h.bus]

/-- From `s` to `t` the cells `cs` of the bitmap at (x, y) were drawn, and marks, configuration and every other byte
were kept. -/
structure Painted (x y : Byte) (cs : List (Fin 5 × Fin 5)) (s t : State) : Prop where
  faults : t.m.faults = s.m.faults
  cfg : t.rx.cfg = s.rx.cfg
  drawn : ∀ a, InCells x y cs a → t.rx.fb.read a = some (bitmapByte x y a)
  kept : ∀ a, ¬ InCells x y cs a → t.rx.fb.read a = s.rx.fb.read a

namespace Painted

variable {x y : Byte} {cs ds : List (Fin 5 × Fin 5)} {s t u : State}

theorem nil : Painted x y [] s s where
  faults := rfl
  cfg := rfl
  drawn := fun _ ⟨_, hmem, _⟩ => absurd hmem List.not_mem_nil
  kept _ _ := rfl

/-- A byte drawn first and drawn again keeps the value that belongs there. -/
theorem append (h : Painted x y cs s t) (h' : Painted x y ds t u) : Painted x y (cs ++ ds) s u where
  faults := h'.faults.trans h.faults
  cfg := h'.cfg.trans h.cfg
  drawn a ha := by
    by_cases hds : InCells x y ds a
    · exact h'.drawn a hds
    · rw [h'.kept a hds, h.drawn a ((inCells_append.1 ha).resolve_right hds)]
  kept a ha := by
    rw [inCells_append, not_or] at ha
    rw [h'.kept a ha.2, h.kept a ha.1]

end Painted

section Drawable
variable {x y : Byte} {s : State} (hfits : BitmapFits x y) (hs : s.Drawable)
include hfits hs

/-- One cell: its eight bytes, and the cursor behind them where there is a position (R165, R180). -/
theorem State.deliverAll_cell (c : Fin 5 × Fin 5) :
    Painted x y [c] s (s.deliverAll (cellUnits x y c.1 c.2)) ∧
      (cellStart x y c + 8 < 1024 → (s.deliverAll (cellUnits x y c.1 c.2)).CursorAt (cellStart x y c + 8)) := by
  obtain ⟨hx, hy, hend⟩ := hfits.cell c
  have hunits : cellUnits x y c.1 c.2 =
      cursorUnits (cellX x c.1) (cellY y c.2) ++ ((List.finRange 8).map (Config.qr c.1 c.2)).map plannedData := by
    rw [List.map_map]
    rfl
  have hlength : ((List.finRange 8).map (Config.qr c.1 c.2)).length = 8 := by
    rw [List.length_map, List.length_finRange]
  have hinRange : cursorOut (cellX x c.1) (cellY y c.2) = false := by
    rw [cursorOut_eq, decide_eq_false]
    omega
  have hfaults : (s.deliverAll (cellUnits x y c.1 c.2)).m.faults = s.m.faults := by
    rw [MarksRange.cellUnits x y c.1 c.2 s hs.ready, hinRange, Marks.checkRange_false]
  obtain ⟨hcfg, hstored, hcursor⟩ :=
    State.deliverAll_cursor_data hs.ready hs.known hs.bus hx hy (by rwa [hlength])
  have hstart : 128 * cellY y c.2 + cellX x c.1 = cellStart x y c := rfl
  rw [← hunits, hstart] at hstored hcursor
  rw [← hunits] at hcfg
  rw [hlength] at hcursor
  refine ⟨⟨hfaults, hcfg, fun a ha => ?_, fun a ha => ?_⟩, hcursor⟩
  · rw [hstored, hlength, if_pos (inCells_singleton.1 ha)]
    obtain ⟨_, hmem, k, rfl⟩ := ha
    cases List.mem_singleton.1 hmem
    rw [Nat.add_sub_cancel_left, bitmapByte_cell, List.getElem?_map, List.finRange, List.getElem?_ofFn, dif_pos k.isLt]
    rfl
  · rw [hstored, hlength, if_neg (mt inCells_singleton.2 ha)]

theorem State.deliverAll_cells (cs : List (Fin 5 × Fin 5)) : Painted x y cs s (s.deliverAll (cellsUnits x y cs)) := by
  induction cs generalizing s with
  | nil => exact Painted.nil
  | cons c cs ih =>
    obtain ⟨hcell, -⟩ := State.deliverAll_cell hfits hs c
    rw [cellsUnits, List.flatMap_cons, State.deliverAll_append]
    exact hcell.append (ih (hs.deliverAll hcell.faults))

/-- A whole bitmap: all its cells, and the cursor behind the last one where there is a position (R165, R167, R180). -/
theorem State.deliverAll_bitmap :
    Painted x y rasterCells s (s.deliverAll (bitmapUnits x y)) ∧
      (cellStart x y (4, 4) + 8 < 1024 → (s.deliverAll (bitmapUnits x y)).CursorAt (cellStart x y (4, 4) + 8)) := by
  obtain ⟨front, hcells⟩ := exists_rasterCells_eq_append
  have hfront := State.deliverAll_cells hfits hs front
  obtain ⟨hlast, hcursor⟩ := State.deliverAll_cell hfits (hs.deliverAll hfront.faults) (4, 4)
  have hunits : bitmapUnits x y = cellsUnits x y front ++ cellUnits x y 4 4 := by
    rw [bitmapUnits_eq, hcells, cellsUnits, List.flatMap_append, List.flatMap_singleton, cellsUnits]
  rw [hunits, State.deliverAll_append, hcells]
  exact ⟨hfront.append hlast, hcursor⟩

end Drawable

/-- The cursor registers are determined by the linear position (R73). -/
theorem State.CursorAt.registers {s : State} {x y : Nat} (h : s.CursorAt (128 * y + x)) (hx : x < 128) (hy : y < 8) :
    s.rx.page = BitVec.ofNat 3 y ∧ s.rx.col = BitVec.ofNat 7 x :=
  lin_inj.1 (h.trans (lin_ofNat hx hy).symm)

end Sys2Proof.Machine

namespace Sys2Proof.Statements

open Sys2Proof.Machine

/-- The records of a delivered cell: its cursor-set and eight data units (R165). -/
theorem cellUnits_records (x y : Byte) (col row : Fin 5) :
    (cellUnits x y col row).map (fun p => (⟨p.txn, 0⟩ : Record)) =
      cursorRecords (cellX x col) (cellY y row) ++ (List.finRange 8).map fun k => dataRecord (Config.qr col row k) := by
  rw [cellUnits, List.map_append, cursorUnits_records, List.map_map]
  rfl

/-- The whole next state of a DRAW_BITMAP whose transport answers 0 throughout (R114, R165). -/
theorem exec_drawBitmap_done {s : State} {rest : List Status} (x y : Byte) (hzeros : IdleWithZeros s 275 rest) :
    exec (.drawBitmap x y) s = .next
      { seq := ended s.seq ⟨0, 0⟩ 275
        rx := ((s.accept (latch 7 x y 0 false []) 0).deliverAll (bitmapUnits x y)).rx
        port := portAfter s.port rest
        m := ((s.accept (latch 7 x y 0 false []) 0).deliverAll (bitmapUnits x y)).m } := by
  rw [exec_done (i := .drawBitmap x y) rfl (by decide : (7 : BitVec 3) ≠ 0) (bitmapUnits_length x y) hzeros,
    expand_bitmap]
  rfl

/-- Settles O33: the 25 cells in raster order (`bitmapUnits_eq`), each with its records. -/
theorem drawBitmapSendsRasterOrder : Obligations.DrawBitmapSendsRasterOrder := by
  intro s x y rest hzeros
  refine ⟨_, exec_drawBitmap_done x y hzeros, rfl, ?_⟩
  -- Reads the field off the next state first: the unifier would run the 275 units instead.
  dsimp only
  rw [State.deliverAll_hist, bitmapUnits_eq, cellsUnits, rasterCells, List.flatMap_map, List.map_flatMap]
  simp only [cellUnits_records]
  rfl

/-- Settles O32: the cells, and the cursor behind the last of them, which is at (4, 4) (`State.deliverAll_bitmap`). -/
theorem drawBitmapPaintsItsCells : Obligations.DrawBitmapPaintsItsCells := by
  intro s x y rest hzeros hready hunmarked hx hy hlast
  have hdrawable : (s.accept (latch 7 x y 0 false []) 0).Drawable :=
    ⟨hready, hunmarked.rxLost, (State.idle_iff.1 hzeros.1).2⟩
  obtain ⟨⟨hfaults, hcfg, hdrawn, hkept⟩, hcursor⟩ := State.deliverAll_bitmap ⟨hx, hy, hlast⟩ hdrawable
  have hbehind : cellStart x y (4, 4) + 8 = 128 * (y.toNat + 4) + (x.toNat + 40) := rfl
  have hbyte (col row : Fin 5) (k : Fin 8) :
      128 * (y.toNat + row.val) + (x.toNat + 8 * col.val + k.val) = cellStart x y (col, row) + k.val :=
    (Nat.add_assoc ..).symm
  rw [hbehind] at hcursor
  refine ⟨_, exec_drawBitmap_done x y hzeros, rfl, rfl, ?_⟩
  -- Reads the fields off the next state first: the unifier would run the 275 units instead.
  dsimp only
  refine ⟨hfaults, hcfg, fun col row k => ?_, fun a hout => hkept a ?_, fun hinside => ?_,
    fun hwrapped hroom => ?_⟩
  · rw [hbyte]
    exact (hdrawn _ ⟨_, mem_rasterCells (col, row), k, rfl⟩).trans (congrArg some (bitmapByte_cell x y (col, row) k))
  · rintro ⟨c, -, k, ha⟩
    exact hout c.1 c.2 k (ha.trans (hbyte c.1 c.2 k).symm)
  · exact (hcursor (by omega)).registers (by omega) (by omega)
  · have hwrap : 128 * (y.toNat + 4) + (x.toNat + 40) = 128 * (y.toNat + 5) + (x.toNat - 88) := by omega
    rw [hwrap] at hcursor
    exact (hcursor (by omega)).registers (by omega) (by omega)

end Sys2Proof.Statements
end

section
/-! PROOF. The wire units at the receiver (R175 to R183, R187): what each changes and what it leaves, the parts of the
cursor as numbers, and data units delivered one after another. -/

namespace Sys2Proof.Machine

/-! ## The cursor commands (R176 to R178) -/

/-- A column is its high bits and its low nibble, as numbers. -/
theorem column_append_toNat (high : BitVec 3) (low : BitVec 4) : (high ++ low).toNat = 16 * high.toNat + low.toNat := by
  rw [BitVec.toNat_append, ← Nat.shiftLeft_add_eq_or_of_lt low.isLt, Nat.shiftLeft_eq, Nat.mul_comm]

/-- COL_LO keeps the high bits (R177, D22). -/
theorem column_low_replaced (c : BitVec 7) (n : BitVec 4) :
    c.extractLsb' 4 3 ++ n = BitVec.ofNat 7 (c.toNat / 16 * 16 + n.toNat) := by
  have hcolumn := c.isLt
  apply BitVec.eq_of_toNat_eq
  rw [column_append_toNat, BitVec.extractLsb'_toNat, Nat.shiftRight_eq_div_pow, BitVec.toNat_ofNat]
  omega

/-- COL_HI keeps the low nibble (R178, D22). -/
theorem column_high_replaced (c : BitVec 7) (n : BitVec 4) :
    n.extractLsb' 0 3 ++ c.extractLsb' 0 4 = BitVec.ofNat 7 (16 * n.toNat + c.toNat % 16) := by
  apply BitVec.eq_of_toNat_eq
  rw [column_append_toNat, BitVec.extractLsb'_toNat, BitVec.extractLsb'_toNat, Nat.shiftRight_zero, Nat.shiftRight_zero,
    BitVec.toNat_ofNat]
  omega

section Known
variable {s : State} (h : s.rxLost = false)
include h

theorem exec_colLo_known_number (n : BitVec 4) :
    exec (.colLo n) s = .next
      { s with rx := { s.rx with col := BitVec.ofNat 7 (s.rx.col.toNat / 16 * 16 + n.toNat) } } := by
  rw [exec_colLo_known h, column_low_replaced]

theorem exec_colHi_known_number {n : BitVec 4} (hn : n.toNat ≤ 7) :
    exec (.colHi n) s = .next
      { s with rx := { s.rx with col := BitVec.ofNat 7 (16 * n.toNat + s.rx.col.toNat % 16) } } := by
  rw [exec_colHi_known h hn, column_high_replaced]

/-- A high nibble that names no column of the surface (R178). -/
theorem exec_colHi_known_out {n : BitVec 4} (hn : 8 ≤ n.toNat) :
    exec (.colHi n) s = .next (s.freeColumn.setFaults s.m.faults.addCursorOutOfRange) := by
  change Host.Outcome.next (rxColHi n s) = _
  rw [rxColHi, if_neg (by omega), State.reacting_known h]
  rfl

/-! ## Data units (R179 to R183) -/

theorem exec_dataWr_ready (hready : s.seq.ready = true) (d : Byte) :
    exec (.dataWr d) s = .next (s.storeAtCursor d).advanceCursor :=
  congrArg Host.Outcome.next (rxDataWr_known hready h d)

theorem exec_dataWr_notReady (hready : s.seq.ready = false) (d : Byte) :
    exec (.dataWr d) s = .next (s.storeSomewhere.setFaults s.m.faults.addDataBeforeInit) := by
  change Host.Outcome.next (rxDataWr d s) = _
  rw [rxDataWr, if_neg (by simp [hready]), State.reacting_known h]
  rfl

end Known

/-- Inside a page the column goes up by one (R180). -/
theorem State.advanceCursor_in_page {s : State} (hcol : s.rx.col.toNat < 127) :
    s.advanceCursor.rx.page = s.rx.page ∧ s.advanceCursor.rx.col.toNat = s.rx.col.toNat + 1 := by
  rw [State.advanceCursor, if_pos hcol]
  exact ⟨rfl, BitVec.toNat_add_of_lt (by exact Nat.succ_lt_succ hcol)⟩

/-- Behind the last column of a page the next page begins (R180). -/
theorem State.advanceCursor_next_page {s : State} (hcol : s.rx.col.toNat = 127) (hpage : s.rx.page.toNat < 7) :
    s.advanceCursor.rx.page.toNat = s.rx.page.toNat + 1 ∧ s.advanceCursor.rx.col = 0 := by
  rw [State.advanceCursor, if_neg (by omega), if_pos hpage]
  exact ⟨BitVec.toNat_add_of_lt (by exact Nat.succ_lt_succ hpage), rfl⟩

/-- A store at the cursor changes that byte alone (R179). -/
theorem State.storeAtCursor_read (s : State) (d : Byte) (a : Nat) :
    (s.storeAtCursor d).rx.fb.read a = if a = lin s.rx.page s.rx.col then some d else s.rx.fb.read a := by
  have hfb : (s.storeAtCursor d).rx.fb = s.rx.fb.put s.rx.page s.rx.col d := rfl
  rw [hfb, Memory.put, Memory.read_write, if_congr eq_comm rfl rfl]

/-- A store and the advance behind it stay inside the receiver (R175, R179, R180). -/
theorem State.storeAtCursor_advance_frame (s : State) (d : Byte) : RxOnly s (s.storeAtCursor d).advanceCursor :=
  (RxOnly.storeAtCursor s d).trans (RxOnly.advanceCursor _)

end Sys2Proof.Machine

namespace Sys2Proof.Statements

open Sys2Proof.Machine

/-! ## Streams of data units (R187) -/

theorem Stored.nil (fb : Memory) (L : Nat) : Stored fb fb L [] := by
  intro a
  rw [if_neg (by simp)]

/-- A byte stored at `L` and the others behind it are a longer run of bytes. -/
theorem Stored.cons {before mid after : Memory} {L : Nat} {d : Byte} {ds : List Byte}
    (hfirst : ∀ a, mid.read a = if a = L then some d else before.read a) (hrest : Stored mid after (L + 1) ds) :
    Stored before after L (d :: ds) := by
  intro a
  rw [hrest a, hfirst a, List.length_cons]
  rcases Nat.lt_trichotomy a L with hbelow | rfl | habove
  · rw [if_neg (by omega), if_neg (by omega), if_neg (by omega)]
  · rw [if_neg (by omega), if_pos rfl, if_pos (by omega), Nat.sub_self, List.getElem?_cons_zero]
  · have hindex : a - L = a - (L + 1) + 1 := by omega
    rw [if_neg (by omega : a ≠ L), hindex, List.getElem?_cons_succ]
    exact if_congr (by omega) rfl rfl

/-- The premise on the cursor is void where the surface ends, so that it also holds behind the last position (R181). -/
theorem execAll_dataWr {s : State} {L : Nat} {ds : List Byte} (hready : s.seq.ready = true) (hknown : s.rxLost = false)
    (hcursor : L < 1024 → s.CursorAt L) (hroom : L + ds.length ≤ 1024) :
    ∃ t, execAll (ds.map .dataWr) s = .next t ∧ t.seq = s.seq ∧ t.port = s.port ∧
      t.m.hist = s.m.hist ∧ t.m.faults = s.m.faults ∧
      Stored s.rx.fb t.rx.fb L ds ∧ (L + ds.length < 1024 → t.CursorAt (L + ds.length)) := by
  induction ds generalizing s L with
  | nil => exact ⟨s, rfl, rfl, rfl, rfl, rfl, .nil _ _, hcursor⟩
  | cons d ds ih =>
    rw [List.length_cons] at hroom ⊢
    have hat : lin s.rx.page s.rx.col = L := hcursor (by omega)
    have hframe := s.storeAtCursor_advance_frame d
    have hmarks : (s.storeAtCursor d).advanceCursor.m.faults = s.m.faults := State.advanceCursor_faults _
    have hready' : (s.storeAtCursor d).advanceCursor.seq.ready = s.seq.ready := by rw [hframe.seq]
    have hcursor' : L + 1 < 1024 → (s.storeAtCursor d).advanceCursor.CursorAt (L + 1) := by
      subst hat
      exact fun hinside => lin_advanceCursor (s := s.storeAtCursor d) (Nat.lt_of_succ_lt_succ hinside)
    obtain ⟨t, hexec, hseq, hport, hhist, hfaults, hstored, hbehind⟩ :=
      ih (hready'.trans hready) ((State.rxLost_congr hmarks hready').trans hknown) hcursor' (by omega)
    refine ⟨t, (execAll_cons_next (exec_dataWr_ready hknown hready d)).trans hexec, hseq.trans hframe.seq,
      hport.trans hframe.port, hhist.trans hframe.hist, hfaults.trans hmarks, .cons (fun a => ?_) hstored, ?_⟩
    · rw [State.advanceCursor_fb, State.storeAtCursor_read, hat]
    · rwa [Nat.add_assoc, Nat.add_comm 1] at hbehind

/-- Settles O44: an unmarked receiver is known (`execAll_dataWr`). -/
theorem streamOfDataUnits : Obligations.StreamOfDataUnits := by
  intro s L ds hready hunmarked hcursor hroom
  exact execAll_dataWr hready hunmarked.rxLost (fun _ => hcursor) hroom

/-- Settles O40: the store at the cursor, and the advance inside a page and behind its last column. -/
theorem dataUnitStoresAndAdvances : Obligations.DataUnitStoresAndAdvances := by
  intro s d hunmarked hready
  have hframe := s.storeAtCursor_advance_frame d
  refine ⟨_, exec_dataWr_ready hunmarked.rxLost hready d, hframe.seq, hframe.port, hframe.hist,
    State.advanceCursor_faults _, State.advanceCursor_cfg _, fun a => ?_, ?_, ?_⟩
  · rw [State.advanceCursor_fb, State.storeAtCursor_read]
  · exact State.advanceCursor_in_page (s := s.storeAtCursor d)
  · exact State.advanceCursor_next_page (s := s.storeAtCursor d)

/-- Settles O35: the five wire units are the reactions of `RxOnly`; the other instructions are read elsewhere. -/
theorem wireUnitsTouchOnlyTheReceiver : Obligations.WireUnitsTouchOnlyTheReceiver := by
  intro s i hplace
  have hreaction : ∃ t, exec i s = .next t ∧ RxOnly s t := by
    cases i with
    | pageSel p => exact ⟨_, rfl, RxOnly.rxPageSel p s⟩
    | colLo n => exact ⟨_, rfl, RxOnly.rxColLo n s⟩
    | colHi n => exact ⟨_, rfl, RxOnly.rxColHi n s⟩
    | cfg b => exact ⟨_, rfl, RxOnly.rxCfg b s⟩
    | dataWr d => exact ⟨_, rfl, RxOnly.rxDataWr d s⟩
    | _ => simp [Instr.place] at hplace
  obtain ⟨t, hexec, hframe⟩ := hreaction
  exact ⟨t, hexec, hframe.seq, hframe.port, hframe.hist, hframe.faults⟩

/-- Settles O36: an unmarked receiver is known. -/
theorem pageSelSetsThePage : Obligations.PageSelSetsThePage := by
  intro s p hunmarked
  exact exec_pageSel_known hunmarked.rxLost p

/-- Settles O37: the column as its high bits and its low nibble (`column_low_replaced`). -/
theorem colLoSetsTheLowNibble : Obligations.ColLoSetsTheLowNibble := by
  intro s n hunmarked
  exact exec_colLo_known_number hunmarked.rxLost n

/-- Settles O38: the column as its high bits and its low nibble (`column_high_replaced`), or a free column and the
mark (`exec_colHi_known_out`). -/
theorem colHiSetsTheHighBits : Obligations.ColHiSetsTheHighBits := by
  intro s n hunmarked
  refine ⟨exec_colHi_known_number hunmarked.rxLost, fun hout => ?_⟩
  exact ⟨_, exec_colHi_known_out hunmarked.rxLost hout, rfl, rfl, rfl, rfl, rfl⟩

/-- Settles O42: before INITIALIZE the receiver stays known under DataBeforeInit, and its rule is the store at the drawn
position (`exec_dataWr_notReady`). -/
theorem dataBeforeInitialiseIsMarked : Obligations.DataBeforeInitialiseIsMarked := by
  intro s d hrange hfailure hready
  have hknown := State.rxLost_eq_false_iff.2 ⟨hrange, hfailure, fun _ => hready⟩
  exact ⟨_, exec_dataWr_notReady hknown hready d, rfl, rfl, rfl, rfl, rfl,
    fun _ hdrawn => Memory.read_put_of_ne hdrawn _⟩

/-- Settles O43: at a known receiver a configuration unit gives other values to the configuration and the cursor
(`rxCfg_known`). -/
theorem configurationKeepsTheSurface : Obligations.ConfigurationKeepsTheSurface := by
  intro s b hunmarked
  exact ⟨_, congrArg Host.Outcome.next (rxCfg_known hunmarked.rxLost b), rfl, rfl, rfl, rfl, rfl⟩

/-- Settles O59: the receiver is known, also under DataBeforeInit, so the three rules run as they stand. -/
theorem cursorUnitsBeforeInitialise : Obligations.CursorUnitsBeforeInitialise := by
  intro s hrange hfailure hready
  have hknown := State.rxLost_eq_false_iff.2 ⟨hrange, hfailure, fun _ => hready⟩
  exact ⟨exec_pageSel_known hknown, exec_colLo_known_number hknown, fun n => exec_colHi_known_number hknown⟩

end Sys2Proof.Statements
end
